-- ==== Sys2Proof/Word.lean ====
section
/-! DEFINITION. The word types of the block (spec/00_scope.md R8): every integer is unsigned. -/

namespace Sys2Proof

/-- `u8`, and one element of `byte[n]` (R8). -/
abbrev Byte := BitVec 8

/-- `u32` (R8): identifiers, PGNs, SPNs and counts. -/
abbrev U32 := BitVec 32

/-- `u64` (R8): raw field values and sentinels. -/
abbrev U64 := BitVec 64

/-- The 64 bits of an IEEE 754 binary64 number as a port carries it (spec/30_encoding.md R58). -/
abbrev F64Bits := BitVec 64

/-- A descriptive string: an opaque finite byte string, possibly empty (D15). -/
abbrev ByteString := List Byte

/-- The flat request word of spec/30_encoding.md R53. -/
abbrev ReqWord := BitVec 429

end Sys2Proof
end

