-- ==== Sys2Proof/Machine/Bits.lean ====
section
/-! DEFINITION. The pseudocode primitives of spec/00_scope.md R7, on naturals. -/

namespace Sys2Proof.Machine

/-- `trunc_n(v)`: the low `n` bits of `v` (R7). -/
def trunc (n v : Nat) : Nat := v % 2 ^ n

/-- `ones(n)`: the all-ones pattern of `n` bits (R7). -/
def ones (n : Nat) : Nat := 2 ^ n - 1

/-- `ceil_div(a, b)`: the least integer not less than `a / b` (R7, for `b > 0`). -/
def ceilDiv (a b : Nat) : Nat := (a + b - 1) / b

/-- `v[lo+n-1 : lo]` of a word: `n` bits from bit `lo` upward (R6, R7). -/
def bits (v : BitVec w) (lo n : Nat) : BitVec n := v.extractLsb' lo n

end Sys2Proof.Machine
end

