-- ==== Sys2Proof/Config.lean ====
section
/-! DEFINITION. What is fixed for the block (spec/00_scope.md R5) and the free values the spec leaves open. -/

namespace Sys2Proof.Config

/-- `REQ_PRIORITY`, a build-time constant (R5, R22). DESIGN CHOICE of the spec's own D9, log 13: safe,
a host that wants another priority uses BUILD_ID. -/
def reqPriority : Nat := 6

/-- `MAX_PAYLOAD`: a payload has 0 to 8 bytes (R5). -/
def maxPayload : Nat := 8

/-- The widest field, in bits (R5). -/
def maxFieldBits : Nat := 64

/-- The PDU2 threshold: `pdu_format >= 240` (R5). -/
def pdu2Threshold : Nat := 240

/-- The PDU format of a Request-PGN frame, 0xEA (R5). -/
def requestPduFormat : Nat := 0xEA

/-- FREE VALUE (log 6): the sign and the fraction of the NaN that a NaN result is, for a raw value, a scale and an
offset (U4: "any value among NaNs"). A function of the operands, because equal requests get equal responses (R40).
Safe: nothing can prove a value of it. -/
opaque freeNan : U64 → F64Bits → F64Bits → BitVec 53

/-- FREE VALUE (log 5): what the admissible instantiation number `k` of NUMERICS, other than the reference, answers
outside the exactness regime of R101 (U2). Safe: nothing can prove a value of it. -/
opaque admissibleScale : Nat → U64 → F64Bits → F64Bits → F64Bits

end Sys2Proof.Config
end

