-- ==== Sys2Proof/Machine/Numerics.lean ====
section
/-! DEFINITION. The scaler's arithmetic (spec/42_extract_scale.md R101, R102): IEEE 754 binary64, round to nearest with
ties to even, written over exact integers. The IEEE facts are the spec's general knowledge (G2), log 8. -/

namespace Sys2Proof.Machine

/-- A binary64 number unpacked: `fin neg mant exp` is the real number `(-1)^neg * mant * 2^exp`. -/
inductive Fp where
  | nan
  | inf (neg : Bool)
  | fin (neg : Bool) (mant : Nat) (exp : Int)
  deriving DecidableEq, Repr

/-- The least exponent of a unit in the last place: that of the subnormal numbers. -/
def Fp.minExp : Int := -1074

/-- The exponent of the unit in the last place of the largest finite numbers. -/
def Fp.maxExp : Int := 971

/-- Unpack the 64 bits of a binary64 number (spec/30_encoding.md R58). -/
def Fp.ofBits (b : F64Bits) : Fp :=
  let neg := b.getLsbD 63
  let e := (b.extractLsb' 52 11).toNat
  let f := (b.extractLsb' 0 52).toNat
  if e = 2047 then (if f = 0 then .inf neg else .nan)
  else if e = 0 then .fin neg f Fp.minExp
  else .fin neg (2 ^ 52 + f) ((e : Int) - 1075)

/-- The bits of a sign and a magnitude. -/
def Fp.signed (neg : Bool) (mag : Nat) : F64Bits := BitVec.ofNat 64 ((if neg then 2 ^ 63 else 0) + mag)

/-- Pack into 64 bits (R58). A NaN is the one supplied; a finite number is one that rounding produced. -/
def Fp.toBits (nan : F64Bits) : Fp → F64Bits
  | .nan => nan
  | .inf neg => Fp.signed neg (2047 * 2 ^ 52)
  | .fin neg m e => Fp.signed neg ((e - Fp.minExp).toNat * 2 ^ 52 + m)

/-- How many bits a natural takes. -/
def bitLength (n : Nat) : Nat := if n = 0 then 0 else n.log2 + 1

/-- The exponent of the unit in the last place when `m * 2^e` is written with at most 53 significant bits. -/
def quantum (m : Nat) (e : Int) : Int :=
  let q := e + bitLength m - 53
  if q < Fp.minExp then Fp.minExp else q

/-- `m / 2^k` rounded to the nearest integer, a tie to the even one. -/
def roundShift (m k : Nat) : Nat :=
  let q := m >>> k
  let r := m % 2 ^ k
  if 2 ^ k < 2 * r ∨ (2 * r = 2 ^ k ∧ q % 2 = 1) then q + 1 else q

/-- The binary64 number nearest to `(-1)^neg * m * 2^e`, ties to even (R101); infinity when the rounded value is
2^1024 or more (R102.3); subnormal numbers are kept (R102.6). -/
def roundFp (neg : Bool) (m : Nat) (e : Int) : Fp :=
  if m = 0 then .fin neg 0 Fp.minExp
  else
    let q := quantum m e
    let n := if q ≤ e then m <<< (e - q).toNat else roundShift m (q - e).toNat
    if Fp.maxExp < q ∨ (q = Fp.maxExp ∧ n = 2 ^ 53) then .inf neg else .fin neg n q

/-- `cvt(raw)`: the binary64 number nearest to an unsigned integer (R101). -/
def Fp.cvt (raw : Nat) : Fp := roundFp false raw 0

/-- `fmul(a, b)`: the binary64 number nearest to the product (R101); infinity times zero is a NaN. -/
def Fp.mul : Fp → Fp → Fp
  | .nan, _ => .nan
  | _, .nan => .nan
  | .inf s, .inf t => .inf (s ^^ t)
  | .inf s, .fin t n _ => if n = 0 then .nan else .inf (s ^^ t)
  | .fin s m _, .inf t => if m = 0 then .nan else .inf (s ^^ t)
  | .fin s m e, .fin t n f => roundFp (s ^^ t) (m * n) (e + f)

/-- A signed integer in units of `2^q`, for a number whose exponent is at least `q`. -/
def scaledInt (neg : Bool) (m : Nat) (e q : Int) : Int :=
  let v : Int := (m <<< (e - q).toNat : Nat)
  if neg then -v else v

/-- The exact sum of two finite numbers as an integer in units of `2^(min e f)`. -/
def exactSum (s : Bool) (m : Nat) (e : Int) (t : Bool) (n : Nat) (f : Int) : Int :=
  let q := if e ≤ f then e else f
  scaledInt s m e q + scaledInt t n f q

/-- `fadd(a, b)`: the binary64 number nearest to the sum (R101). A sum of exactly zero is +0, or -0 when both operands
are negative (R102.4); opposite infinities give a NaN. -/
def Fp.add : Fp → Fp → Fp
  | .nan, _ => .nan
  | _, .nan => .nan
  | .inf s, .inf t => if s = t then .inf s else .nan
  | .inf s, .fin _ _ _ => .inf s
  | .fin _ _ _, .inf t => .inf t
  | .fin s m e, .fin t n f =>
    let z := exactSum s m e t n f
    if z = 0 then .fin (s && t) 0 Fp.minExp
    else roundFp (decide (z < 0)) z.natAbs (if e ≤ f then e else f)

/-- `raw * scale + offset` in three separately rounded steps (R101). -/
def scaleFp (raw : U64) (scale offset : F64Bits) : Fp :=
  Fp.add (Fp.mul (Fp.cvt raw.toNat) (Fp.ofBits scale)) (Fp.ofBits offset)

/-- The NaN with the sign bit 52 and the fraction bits 51:0 of `x`; a zero fraction would be an infinity and is taken
as 1. Every NaN is reached. -/
def nanOf (x : BitVec 53) : F64Bits :=
  let f := (x.extractLsb' 0 52).toNat
  Fp.signed (x.getLsbD 52) (2047 * 2 ^ 52 + (if f = 0 then 1 else f))

/-- `scale_value` under the reference NUMERICS (R101). Which NaN a NaN result is stays free (R102.5, U4, log 6). -/
def scaleReference (raw : U64) (scale offset : F64Bits) : F64Bits :=
  (scaleFp raw scale offset).toBits (nanOf (Config.freeNan raw scale offset))

/-- Whether a sign-less `m * 2^e` is exactly a binary64 number: rounding it changes nothing. -/
def representable (m : Nat) (e : Int) : Bool :=
  match roundFp false m e with
  | .fin _ n q => if q ≤ e then decide (n = m <<< (e - q).toNat) else decide (n <<< (q - e).toNat = m)
  | _ => false

/-- The exactness regime (R101): scale and offset are finite, and `raw`, `raw * scale` and `raw * scale + offset` are
each exactly a binary64 number. -/
def exactRegime (raw : U64) (scale offset : F64Bits) : Bool :=
  match Fp.ofBits scale, Fp.ofBits offset with
  | .fin s m e, .fin t n f =>
    representable raw.toNat 0 && representable (raw.toNat * m) e
      && representable (exactSum s (raw.toNat * m) e t n f).natAbs (if e ≤ f then e else f)
  | _, _ => false

/-- Which instantiation of the configuration function NUMERICS the block has (R101, U2): the reference, or another
admissible one, numbered. -/
inductive Numerics where
  | reference
  | admissible (k : Nat)
  deriving DecidableEq, Repr

/-- `scale_value(raw, scale, offset)` (R101). Every admissible instantiation agrees with the exact result in the
exactness regime; outside it an instantiation other than the reference is a free function (log 5, log 7). -/
def scaleValue : Numerics → U64 → F64Bits → F64Bits → F64Bits
  | .reference, raw, scale, offset => scaleReference raw scale offset
  | .admissible k, raw, scale, offset =>
    if exactRegime raw scale offset then scaleReference raw scale offset
    else Config.admissibleScale k raw scale offset

/-- Whether 64 bits are a finite binary64 number (spec/41_database.md R110 W6). -/
def isFinite (b : F64Bits) : Bool := decide ((b.extractLsb' 52 11).toNat ≠ 2047)

/-- Whether 64 bits are a NaN. -/
def isNan (b : F64Bits) : Bool :=
  decide ((b.extractLsb' 52 11).toNat = 2047) && decide ((b.extractLsb' 0 52).toNat ≠ 0)

end Sys2Proof.Machine
end

