-- ==== Sys2Proof/Machine/Records.lean ====
section
/-! DEFINITION. The records the block answers with and the row of its table (spec/10_state.md R14 to R20). -/

namespace Sys2Proof.Machine

/-- One row of `SPN_TABLE` (R16). The three positions are integers whose ranges are table conditions (R110 W2, W3). -/
structure SpnDefinition where
  spn             : U32
  name            : ByteString
  unit            : ByteString
  pgn             : U32
  startByte       : Nat
  startBit        : Nat
  lengthBits      : Nat
  scale           : F64Bits
  offset          : F64Bits
  notAvailableRaw : U64
  deriving DecidableEq, Repr

/-- The decoded view of a CAN identifier (R17), with the widths of R14. -/
structure CanIdentifier where
  priority      : BitVec 3
  reserved      : BitVec 1
  dataPage      : BitVec 1
  pduFormat     : Byte
  pduSpecific   : Byte
  sourceAddress : Byte
  pgn           : U32
  deriving DecidableEq, Repr

/-- One decoded signal (R18). The port form, which gives the row's index for the strings, is in Ports.lean (log 23). -/
structure DecodedSpn where
  spn   : U32
  name  : ByteString
  value : F64Bits
  unit  : ByteString
  deriving DecidableEq, Repr

/-- The frame BUILD_REQ produces: an identifier and its payload bytes, byte 0 first (R14, R137). -/
structure RequestFrame where
  canId : U32
  data  : List Byte
  deriving DecidableEq, Repr

/-- A response: the record R14 gives the operation that was asked for. An absent result is `none` and carries no value
bits (R15, U8); a sequence is a list (R20, D5). -/
inductive Response where
  /-- PARSE_ID. -/
  | canIdentifier (c : CanIdentifier)
  /-- BUILD_ID. -/
  | canId (id : U32)
  /-- GET_SPN_DEF. -/
  | spnDef (row : Option SpnDefinition)
  /-- LIST_PGNS. -/
  | pgns (l : List U32)
  /-- DB_STATS. -/
  | stats (spnCount pgnCount : U32)
  /-- EXTRACT. -/
  | raw (r : Option U64)
  /-- DECODE_SPN. -/
  | value (v : Option F64Bits)
  /-- DECODE_FRAME. -/
  | decoded (l : List DecodedSpn)
  /-- BUILD_REQ. -/
  | request (f : RequestFrame)
  deriving DecidableEq, Repr

/-- The causes of an absent result (spec/60_exceptions.md R141). A label, not a code on any port (R143). -/
inductive Absence where
  /-- ABS_UNKNOWN_SPN: no row has the SPN asked for. -/
  | unknownSpn
  /-- ABS_UNKNOWN_PGN: no row has the PGN of the frame. -/
  | unknownPgn
  /-- ABS_BAD_LENGTH: `length_bits` is 0 or above 64. -/
  | badLength
  /-- ABS_SHORT: the field is not wholly inside the payload. -/
  | short
  /-- ABS_NOT_AVAILABLE: the raw value is the sentinel. -/
  | notAvailable
  deriving DecidableEq, Repr

end Sys2Proof.Machine
end

