-- ==== Sys2Proof/Machine/Table.lean ====
section
/-! DEFINITION. What a definition table is (spec/41_database.md R110) and the three ways it is read (R111, R112, R116;
spec/20_memory.md R45). Both indices are functions of the one row list (R113, spec/10_state.md R19). -/

namespace Sys2Proof.Machine

/-- Conditions W2 to W6 of R110 on one row. -/
def rowWf (r : SpnDefinition) : Bool :=
  decide (r.startByte ≤ 7) && decide (r.startBit ≤ 7)
    && decide (1 ≤ r.lengthBits) && decide (r.lengthBits ≤ 64)
    && decide (r.startByte * 8 + r.startBit + r.lengthBits ≤ 64)
    && decide (r.notAvailableRaw.toNat = ones r.lengthBits)
    && isFinite r.scale && isFinite r.offset

/-- Condition W1 of R110: no two rows have the same SPN. -/
def spnsDistinct : List SpnDefinition → Bool
  | [] => true
  | r :: rest => rest.all (fun q => decide (q.spn ≠ r.spn)) && spnsDistinct rest

/-- A well-formed table: R110 W1 to W7. -/
def tableWf (rows : List SpnDefinition) : Bool :=
  spnsDistinct rows && rows.all rowWf && decide (rows.length < 2 ^ 32)

/-- `rows_by_spn(s)`: the one row with that SPN (R111). A key matches by equality of all 32 bits (R45). -/
def rowsBySpn (rows : List SpnDefinition) (s : U32) : Option SpnDefinition :=
  rows.find? (fun r => decide (r.spn = s))

/-- `rows_by_pgn(p)`: all rows with that PGN, in registration order (R112). -/
def rowsByPgn (rows : List SpnDefinition) (p : U32) : List SpnDefinition :=
  rows.filter (fun r => decide (r.pgn = p))

/-- The PGNs of `rows` that are not among `before` and have no earlier row, in table order. -/
def newPgns (before : List U32) : List SpnDefinition → List U32
  | [] => []
  | r :: rest =>
    if r.pgn ∈ before then newPgns before rest else r.pgn :: newPgns (r.pgn :: before) rest

/-- `distinct_pgns`: each PGN once, in order of first appearance (R116; the order is the spec's own choice D14, log 9). -/
def distinctPgns (rows : List SpnDefinition) : List U32 := newPgns [] rows

/-- The two counts of DB_STATS on 32-bit ports; W7 keeps them in range (R120). -/
def spnCount (rows : List SpnDefinition) : U32 := BitVec.ofNat 32 rows.length

/-- The number of distinct PGNs (R120). -/
def pgnCount (rows : List SpnDefinition) : U32 := BitVec.ofNat 32 (distinctPgns rows).length

end Sys2Proof.Machine
end

