-- ==== Sys2Proof/Machine/RefTable.lean ====
section
/-! DEFINITION. `REF_TABLE`, the spec's reference instantiation of `SPN_TABLE` (spec/41_database.md R122). It is a
fixture of the spec, not the repository's table (N1, G5), log 3. -/

namespace Sys2Proof.Machine

/-- A string as its bytes, one byte a character (ASCII, log 20). -/
def ascii (s : String) : ByteString := s.toList.map (fun c => BitVec.ofNat 8 c.toNat)

/-- Row 0, SPN 190. -/
def refEngineSpeed : SpnDefinition where
  spn             := 190
  name            := ascii "Engine Speed"
  unit            := ascii "rpm"
  pgn             := 61444
  startByte       := 3
  startBit        := 0
  lengthBits      := 16
  scale           := 0x3FC0000000000000   -- 0.125
  offset          := 0x0000000000000000   -- 0.0
  notAvailableRaw := 0xFFFF

/-- Row 1, SPN 110. -/
def refCoolantTemperature : SpnDefinition where
  spn             := 110
  name            := ascii "Engine Coolant Temperature"
  unit            := ascii "degC"
  pgn             := 65262
  startByte       := 0
  startBit        := 0
  lengthBits      := 8
  scale           := 0x3FF0000000000000   -- 1.0
  offset          := 0xC044000000000000   -- -40.0
  notAvailableRaw := 0xFF

/-- Row 2, SPN 100. -/
def refOilPressure : SpnDefinition where
  spn             := 100
  name            := ascii "Engine Oil Pressure"
  unit            := ascii "kPa"
  pgn             := 65263
  startByte       := 3
  startBit        := 0
  lengthBits      := 8
  scale           := 0x4010000000000000   -- 4.0
  offset          := 0x0000000000000000   -- 0.0
  notAvailableRaw := 0xFF

/-- Row 3, SPN 247. -/
def refTotalHours : SpnDefinition where
  spn             := 247
  name            := ascii "Engine Total Hours of Operation"
  unit            := ascii "h"
  pgn             := 65253
  startByte       := 0
  startBit        := 0
  lengthBits      := 32
  scale           := 0x3FA999999999999A   -- the binary64 number nearest to 0.05
  offset          := 0x0000000000000000   -- 0.0
  notAvailableRaw := 0xFFFFFFFF

/-- Row 4, SPN 513. -/
def refPercentTorque : SpnDefinition where
  spn             := 513
  name            := ascii "Actual Engine - Percent Torque"
  unit            := ascii "%"
  pgn             := 61444
  startByte       := 2
  startBit        := 0
  lengthBits      := 8
  scale           := 0x3FF0000000000000   -- 1.0
  offset          := 0xC05F400000000000   -- -125.0
  notAvailableRaw := 0xFF

/-- Row 5, SPN 899. -/
def refTorqueMode : SpnDefinition where
  spn             := 899
  name            := ascii "Engine Torque Mode"
  unit            := ascii ""
  pgn             := 61444
  startByte       := 0
  startBit        := 0
  lengthBits      := 4
  scale           := 0x3FF0000000000000   -- 1.0
  offset          := 0x0000000000000000   -- 0.0
  notAvailableRaw := 0xF

/-- The six rows in registration order. -/
def refRows : List SpnDefinition :=
  [refEngineSpeed, refCoolantTemperature, refOilPressure, refTotalHours, refPercentTorque, refTorqueMode]

/-- `REF_TABLE` is well formed (R122). -/
theorem refRows_wf : tableWf refRows = true := by decide

end Sys2Proof.Machine
end

