-- ==== Sys2Proof/Syntax.lean ====
section
/-! DEFINITION. The requests of the block: the port record REQ (spec/10_state.md R13) and the nine operations, each
with only the operands it reads (spec/30_encoding.md R60, R61; R53 allows this form). -/

namespace Sys2Proof

/-- One request as it stands on the request port (R13), the ports in the table's order. -/
structure Req where
  op            : BitVec 4
  id            : U32
  data          : BitVec 64
  dlen          : BitVec 4
  startByte     : BitVec 3
  startBit      : BitVec 3
  lengthBits    : BitVec 7
  scale         : F64Bits
  offset        : F64Bits
  naRaw         : U64
  priority      : Byte
  dataPage      : Byte
  pduFormat     : Byte
  pduSpecific   : Byte
  sourceAddress : Byte
  requesterSa   : Byte
  targetDa      : Byte
  pgn           : U32
  spn           : U32
  deriving DecidableEq, Repr

/-- The payload operand (R55): eight byte lanes and a length. Lane `i` is port bits `[8*i+7 : 8*i]` (D26). -/
structure Payload where
  data : BitVec 64
  dlen : BitVec 4
  deriving DecidableEq, Repr

/-- Where a field lies in a payload (R90): the `start_byte`, `start_bit` and `length_bits` ports. -/
structure Field where
  startByte  : BitVec 3
  startBit   : BitVec 3
  lengthBits : BitVec 7
  deriving DecidableEq, Repr

/-- The nine operations (R60), one constructor per row of spec/opcode_table.json. -/
inductive Instr where
  /-- PARSE_ID, 0x0 (R80). -/
  | parseId (id : U32)
  /-- BUILD_ID, 0x1 (R84). -/
  | buildId (priority dataPage pduFormat pduSpecific sourceAddress : Byte)
  /-- GET_SPN_DEF, 0x2 (R114). -/
  | getSpnDef (spn : U32)
  /-- LIST_PGNS, 0x3 (R118). -/
  | listPgns
  /-- DB_STATS, 0x4 (R120). -/
  | dbStats
  /-- EXTRACT, 0x5 (R90). -/
  | extract (payload : Payload) (field : Field)
  /-- DECODE_SPN, 0x6 (R100). -/
  | decodeSpn (payload : Payload) (field : Field) (scale offset : F64Bits) (naRaw : U64)
  /-- DECODE_FRAME, 0x7 (R130). -/
  | decodeFrame (id : U32) (payload : Payload)
  /-- BUILD_REQ, 0x8 (R136). -/
  | buildReq (requesterSa targetDa : Byte) (pgn : U32)
  deriving DecidableEq, Repr

end Sys2Proof
end

