-- ==== Sys2Proof/Machine/State.lean ====
section
/-! DEFINITION. The state of the model: the configuration of the run and the two ports of the transaction interface. The
block itself has no mutable state (spec/10_state.md R10, R11, R12; spec/70_reset_and_hazards.md R164). -/

namespace Sys2Proof.Machine

/-- A definition table: rows that satisfy spec/41_database.md R110. Rows that do not are no configuration of the block
(R123), so no value of this type holds them. -/
structure SpnTable where
  rows : List SpnDefinition
  wf   : tableWf rows = true
  deriving DecidableEq, Repr

/-- The block has no fault: every abnormal condition is an absence, and every admitted request is answered
(spec/60_exceptions.md R140; spec/93_implementation_defined.md Part 1). So this type has no constructor. -/
inductive Fault where
  deriving DecidableEq, Repr

/-- Why a request, or a host action, has no meaning (R146). All are safe: nothing is claimed of a run that holds one. -/
inductive Refusal where
  /-- An instruction that has no meaning yet, by mnemonic: raised by `exec`'s refused arms only (there are none). Safe. -/
  | notModelled (mnemonic : String)
  /-- REF_BAD_OP: `step`, on an operation code of 0x9 to 0xF (R62, R146). Safe. -/
  | badOp (op : BitVec 4)
  /-- REF_BAD_DLEN: EXTRACT, DECODE_SPN and DECODE_FRAME, on a `dlen` of 9 to 15 (R63, R146). Safe. -/
  | badDlen (dlen : BitVec 4)
  /-- REF_NO_TABLE: GET_SPN_DEF, LIST_PGNS, DB_STATS and DECODE_FRAME before the table is built (R146): by `exec` when
  one is taken, by the host action that builds the table when one is waiting (log 26). Safe. -/
  | noTable
  /-- The host action that builds the table, on rows that are not well formed (R123). Safe. -/
  | malformedTable
  /-- The host action that builds the table, when one is built already (spec/20_memory.md R43, U6). Safe. -/
  | tableReplaced
  deriving DecidableEq, Repr

/-- The state. INVENTORY.md lists each field with its rule. -/
structure State where
  /-- `SPN_TABLE`, or `none` before it is built (R162). Configuration: no step changes it (R163), log 2. -/
  table     : Option SpnTable
  /-- Which `NUMERICS` the block has (R101). Configuration: no step changes it. -/
  numerics  : Numerics
  /-- The requests presented and not yet answered, oldest first (R13, R167), log 1. -/
  requests  : List Req
  /-- The responses given and not yet taken, oldest first (R14, R167), log 1. -/
  responses : List Response
  deriving DecidableEq, Repr

/-- `REF_TABLE` as a table (R122). -/
def refTable : SpnTable := ⟨refRows, refRows_wf⟩

/-- The state after reset (R21, R160): no request is waiting and no response is pending. The table and the numerics are
build-time constants that reset does not change; the constants named here are the spec's reference instantiations
(DESIGN CHOICE, unsafe for a claim about this very state, log 3). -/
def State.reset : State where
  table     := some refTable
  numerics  := .reference
  requests  := []
  responses := []

end Sys2Proof.Machine
end

