-- ==== Sys2Proof/WellFormed.lean ====
section
/-! DEFINITION. Which requests lie inside the input contract. Every width is in the types; the one check left is the
payload length (spec/30_encoding.md R55, R63; spec/60_exceptions.md R146 REF_BAD_DLEN). -/

namespace Sys2Proof

/-- A payload has 0 to 8 bytes (R55). -/
def Payload.wf (p : Payload) : Bool := decide (p.dlen.toNat ≤ Config.maxPayload)

/-- An operation is well formed when the payload it reads, if it reads one, has at most 8 bytes (R146). -/
def Instr.wf : Instr → Bool
  | .parseId _ => true
  | .buildId _ _ _ _ _ => true
  | .getSpnDef _ => true
  | .listPgns => true
  | .dbStats => true
  | .extract p _ => p.wf
  | .decodeSpn p _ _ _ _ => p.wf
  | .decodeFrame _ p => p.wf
  | .buildReq _ _ _ => true

end Sys2Proof
end

