-- ==== Sys2Proof/Machine/Ops.lean ====
section
/-! DEFINITION. The operations every meaning is built from: giving a response, reading the table, admitting a payload.
There is no exception to take and none to return from (spec/60_exceptions.md R140, R147). -/

namespace Sys2Proof.Machine

/-- The state with one more response, behind the earlier ones (R167); nothing else changes (R38, R164). -/
def State.addResponse (s : State) (r : Response) : State := { s with responses := s.responses ++ [r] }

/-- Give a response. -/
def respond (s : State) (r : Response) : Host.Outcome State Fault Refusal := .next (s.addResponse r)

/-- Answer from the table; refused before it is built (R146 REF_NO_TABLE). A request presented
before the table is refused here or stops `State.buildTable`, and so is never answered (R166, log 26). -/
def respondFromTable (s : State) (answer : List SpnDefinition → Response) : Host.Outcome State Fault Refusal :=
  match s.table with
  | some t => respond s (answer t.rows)
  | none => .refused .noTable

/-- Go on with a payload of at most 8 bytes; refused with a longer one (R146 REF_BAD_DLEN). -/
def admitPayload (p : Payload) (k : Host.Outcome State Fault Refusal) : Host.Outcome State Fault Refusal :=
  if p.wf then k else .refused (.badDlen p.dlen)

end Sys2Proof.Machine
end

