-- ==== Sys2Proof/Machine/Database.lean ====
section
/-! DEFINITION. The definition database: GET_SPN_DEF, LIST_PGNS and DB_STATS (spec/41_database.md). -/

namespace Sys2Proof.Machine

/-- GET_SPN_DEF (R114): the whole row, or none when no row has the SPN. -/
def execGetSpnDef (spn : U32) (s : State) : Host.Outcome State Fault Refusal :=
  respondFromTable s (fun rows => .spnDef (rowsBySpn rows spn))

/-- LIST_PGNS (R118). -/
def execListPgns (s : State) : Host.Outcome State Fault Refusal :=
  respondFromTable s (fun rows => .pgns (distinctPgns rows))

/-- DB_STATS (R120). -/
def execDbStats (s : State) : Host.Outcome State Fault Refusal :=
  respondFromTable s (fun rows => .stats (spnCount rows) (pgnCount rows))

end Sys2Proof.Machine
end

