-- ==== Sys2Proof/Machine/Flags.lean ====
section
/-! DEFINITION. The one-bit conditions the block computes. None is kept: there is no status flag (spec/10_state.md R12),
and the `valid` bit of a response is an output of that response only. -/

namespace Sys2Proof.Machine

/-- `pdu_format >= 240`: PDU2, broadcast; otherwise PDU1, peer-to-peer (spec/40_can_id.md R81, R82). -/
def isPdu2 (pduFormat : Byte) : Bool := decide (Config.pdu2Threshold ≤ pduFormat.toNat)

/-- The destination address of a frame: `pdu_specific` under PDU1, none under PDU2 (R82). -/
def destination (c : CanIdentifier) : Option Byte := if isPdu2 c.pduFormat then none else some c.pduSpecific

/-- A field length that can be read: 1 to 64 (spec/42_extract_scale.md R90). -/
def lengthOk (length : Nat) : Bool := decide (1 ≤ length) && decide (length ≤ Config.maxFieldBits)

/-- How many bytes a payload must have for a field (R91). -/
def bytesNeeded (startByte startBit length : Nat) : Nat := startByte + ceilDiv (startBit + length) 8

/-- Whether a payload of `dlen` bytes holds the whole field (R90, R91). -/
def fits (dlen startByte startBit length : Nat) : Bool := decide (bytesNeeded startByte startBit length ≤ dlen)

/-- The sentinel test: equality of all 64 bits with the definition's own value (R100, C2). -/
def isNotAvailable (raw naRaw : U64) : Bool := decide (raw = naRaw)

/-- An optional result at the port: the label of an absence is dropped (spec/60_exceptions.md R143). -/
def toPort (r : Except Absence α) : Option α := r.toOption

end Sys2Proof.Machine
end

