-- ==== Sys2Proof/Machine/CanId.lean ====
section
/-! DEFINITION. The CAN identifier codec: PARSE_ID and BUILD_ID (spec/40_can_id.md). -/

namespace Sys2Proof.Machine

/-- `pgn_of(dp, pf, ps)` (R81), zero-extended to 32 bits. -/
def pgnOf (dp : BitVec 1) (pf ps : Byte) : U32 :=
  let high := (dp.setWidth 32 <<< 16) ||| (pf.setWidth 32 <<< 8)
  if isPdu2 pf then high ||| ps.setWidth 32 else high

/-- `parse_can_id` (R80). Bits 31:29 are ignored; the reserved bit is copied out and enters nothing else. -/
def parseCanId (id : U32) : CanIdentifier where
  priority      := bits id 26 3
  reserved      := bits id 25 1
  dataPage      := bits id 24 1
  pduFormat     := bits id 16 8
  pduSpecific   := bits id 8 8
  sourceAddress := bits id 0 8
  pgn           := pgnOf (bits id 24 1) (bits id 16 8) (bits id 8 8)

/-- `build_can_id` over operands of any width (R84): each is cut to its field, silently; bits 31:29 and 25 are 0 (D7,
log 12). -/
def buildCanId (priority dataPage pduFormat pduSpecific sourceAddress : Nat) : U32 :=
  BitVec.ofNat 32
    ((trunc 3 priority <<< 26) ||| (trunc 1 dataPage <<< 24) ||| (trunc 8 pduFormat <<< 16)
      ||| (trunc 8 pduSpecific <<< 8) ||| trunc 8 sourceAddress)

/-- PARSE_ID (R80). -/
def execParseId (id : U32) (s : State) : Host.Outcome State Fault Refusal :=
  respond s (.canIdentifier (parseCanId id))

/-- BUILD_ID (R84). -/
def execBuildId (priority dataPage pduFormat pduSpecific sourceAddress : Byte) (s : State) :
    Host.Outcome State Fault Refusal :=
  respond s (.canId (buildCanId priority.toNat dataPage.toNat pduFormat.toNat pduSpecific.toNat sourceAddress.toNat))

end Sys2Proof.Machine
end

