-- ==== Sys2Proof/Machine/Operands.lean ====
section
/-! DEFINITION. The payload operand and its one addressing mode (spec/20_memory.md R31, R33; spec/42_extract_scale.md
R90, R93). The functions are stated over naturals, for positions of any size (D22). -/

namespace Sys2Proof.Machine

/-- Byte lane `i` of the `data` port (spec/30_encoding.md R55). -/
def byteLane (data : BitVec 64) (i : Nat) : Byte := bits data (8 * i) 8

/-- `Stream(data, dlen)`: the first `dlen` bytes as one little-endian number (R31). -/
def stream (data : BitVec 64) : Nat → Nat
  | 0 => 0
  | n + 1 => stream data n + (byteLane data n).toNat * 2 ^ (8 * n)

/-- The bit address of a field (R30, R90). -/
def fieldPos (startByte startBit : Nat) : Nat := startByte * 8 + startBit

/-- `MemRead(pos, n)` where it is defined (R33). -/
def memRead (data : BitVec 64) (dlen pos n : Nat) : Nat := (stream data dlen >>> pos) % 2 ^ n

/-- The field of `length` bits at `(startByte, startBit)`, or the first reason of R144 for its absence. -/
def extractBits (data : BitVec 64) (dlen startByte startBit length : Nat) : Except Absence U64 :=
  if lengthOk length then
    if fits dlen startByte startBit length then
      .ok (BitVec.ofNat 64 (memRead data dlen (fieldPos startByte startBit) length))
    else .error .short
  else .error .badLength

/-- The field an EXTRACT or a DECODE_SPN request names, read from its payload. -/
def readField (p : Payload) (f : Field) : Except Absence U64 :=
  extractBits p.data p.dlen.toNat f.startByte.toNat f.startBit.toNat f.lengthBits.toNat

end Sys2Proof.Machine
end

