-- ==== Sys2Proof/Machine/ExtractScale.lean ====
section
/-! DEFINITION. The bit-field shifter and the scaler: EXTRACT and DECODE_SPN (spec/42_extract_scale.md). -/

namespace Sys2Proof.Machine

/-- The sentinel test and the scaler on an extracted raw value (R100 steps 2 and 3). -/
def scaleRaw (num : Numerics) (scale offset : F64Bits) (naRaw raw : U64) : Except Absence F64Bits :=
  if isNotAvailable raw naRaw then .error .notAvailable else .ok (scaleValue num raw scale offset)

/-- `decode_spn` (R100), with the cause of an absence, tested in the order of spec/60_exceptions.md R144. -/
def decodeSpn (num : Numerics) (data : BitVec 64) (dlen startByte startBit length : Nat)
    (scale offset : F64Bits) (naRaw : U64) : Except Absence F64Bits :=
  match extractBits data dlen startByte startBit length with
  | .error a => .error a
  | .ok raw => scaleRaw num scale offset naRaw raw

/-- EXTRACT (R90). -/
def execExtract (p : Payload) (f : Field) (s : State) : Host.Outcome State Fault Refusal :=
  admitPayload p (respond s (.raw (toPort (readField p f))))

/-- DECODE_SPN (R100). An overflow, an infinity or a NaN is delivered as a present value (R102.3). -/
def execDecodeSpn (p : Payload) (f : Field) (scale offset : F64Bits) (naRaw : U64) (s : State) :
    Host.Outcome State Fault Refusal :=
  admitPayload p (respond s (.value (toPort
    (decodeSpn s.numerics p.data p.dlen.toNat f.startByte.toNat f.startBit.toNat f.lengthBits.toNat
      scale offset naRaw))))

end Sys2Proof.Machine
end

