-- ==== Sys2Proof/Machine/Frame.lean ====
section
/-! DEFINITION. The frame decoder and the request-frame builder: DECODE_FRAME and BUILD_REQ (spec/43_frame.md). -/

namespace Sys2Proof.Machine

/-- DECODE_SPN with a table row's own fields (R130). -/
def decodeRow (num : Numerics) (p : Payload) (r : SpnDefinition) : Except Absence F64Bits :=
  decodeSpn num p.data p.dlen.toNat r.startByte r.startBit r.lengthBits r.scale r.offset r.notAvailableRaw

/-- The element a row gives, if its field has a value (R130, R18). -/
def rowElement (num : Numerics) (p : Payload) (r : SpnDefinition) : Option DecodedSpn :=
  (toPort (decodeRow num p r)).map (fun x => ⟨r.spn, r.name, x, r.unit⟩)

/-- `decode_frame` (R130): the rows of the frame's PGN in registration order, those without a value left out. -/
def decodeFrame (num : Numerics) (rows : List SpnDefinition) (id : U32) (p : Payload) : List DecodedSpn :=
  (rowsByPgn rows (parseCanId id).pgn).filterMap (rowElement num p)

/-- `request_payload(pgn)`: three bytes, lowest first; bits 31:24 are dropped (R137). -/
def requestPayload (pgn : U32) : List Byte := [bits pgn 0 8, bits pgn 8 8, bits pgn 16 8]

/-- `build_request_pgn` (R136): the five-field packer on fixed fields, data page 0 (R138), and the payload of R137. -/
def buildRequest (requesterSa targetDa : Byte) (pgn : U32) : RequestFrame where
  canId := buildCanId Config.reqPriority 0 Config.requestPduFormat targetDa.toNat requesterSa.toNat
  data  := requestPayload pgn

/-- DECODE_FRAME (R130). With a `dlen` above 8 and no table both refusals of R146 apply; the payload's is given. -/
def execDecodeFrame (id : U32) (p : Payload) (s : State) : Host.Outcome State Fault Refusal :=
  admitPayload p (respondFromTable s (fun rows => .decoded (decodeFrame s.numerics rows id p)))

/-- BUILD_REQ (R136). The table is not looked at. -/
def execBuildReq (requesterSa targetDa : Byte) (pgn : U32) (s : State) : Host.Outcome State Fault Refusal :=
  respond s (.request (buildRequest requesterSa targetDa pgn))

end Sys2Proof.Machine
end

