-- ==== Sys2Proof/Machine/Dispatch.lean ====
section
/-! DEFINITION. One arm per operation (spec/30_encoding.md R60). -/

namespace Sys2Proof.Machine

def exec (i : Instr) (s : State) : Host.Outcome State Fault Refusal :=
  match i with
  | .parseId id => Sys2Proof.Machine.execParseId id s
  | .buildId p d f ps sa => Sys2Proof.Machine.execBuildId p d f ps sa s
  | .getSpnDef spn => Sys2Proof.Machine.execGetSpnDef spn s
  | .listPgns => Sys2Proof.Machine.execListPgns s
  | .dbStats => Sys2Proof.Machine.execDbStats s
  | .extract p f => Sys2Proof.Machine.execExtract p f s
  | .decodeSpn p f sc off na => Sys2Proof.Machine.execDecodeSpn p f sc off na s
  | .decodeFrame id p => Sys2Proof.Machine.execDecodeFrame id p s
  | .buildReq sa da pgn => Sys2Proof.Machine.execBuildReq sa da pgn s

end Sys2Proof.Machine
end

