-- ==== Sys2Proof/Decode.lean ====
section
/-! DEFINITION. From a request to an operation, total and rejecting by name; after it the encoder. The flat word is
that of spec/30_encoding.md R53, the operation codes those of R60, the ports read those of R61. -/

namespace Sys2Proof

/-- Why a request selects no operation (spec/60_exceptions.md R146). -/
inductive DecodeError where
  /-- REF_BAD_OP: the code is 0x9 to 0xF (R62). -/
  | badOp (op : BitVec 4)
  /-- REF_BAD_DLEN: an operation that reads the payload, with a `dlen` of 9 to 15 (R63). -/
  | badDlen (dlen : BitVec 4)
  deriving DecidableEq, Repr

/-- The ports of a flat request word, each at the bits R53 gives it. -/
def Req.ofWord (w : ReqWord) : Req where
  op            := w.extractLsb' 0 4
  id            := w.extractLsb' 4 32
  data          := w.extractLsb' 36 64
  dlen          := w.extractLsb' 100 4
  startByte     := w.extractLsb' 104 3
  startBit      := w.extractLsb' 107 3
  lengthBits    := w.extractLsb' 110 7
  scale         := w.extractLsb' 117 64
  offset        := w.extractLsb' 181 64
  naRaw         := w.extractLsb' 245 64
  priority      := w.extractLsb' 309 8
  dataPage      := w.extractLsb' 317 8
  pduFormat     := w.extractLsb' 325 8
  pduSpecific   := w.extractLsb' 333 8
  sourceAddress := w.extractLsb' 341 8
  requesterSa   := w.extractLsb' 349 8
  targetDa      := w.extractLsb' 357 8
  pgn           := w.extractLsb' 365 32
  spn           := w.extractLsb' 397 32

/-- The flat word of a request: the ports concatenated in the order of R53's table, `op` least significant. -/
def Req.toWord (q : Req) : ReqWord :=
  q.spn ++ q.pgn ++ q.targetDa ++ q.requesterSa ++ q.sourceAddress ++ q.pduSpecific ++ q.pduFormat ++ q.dataPage
    ++ q.priority ++ q.naRaw ++ q.offset ++ q.scale ++ q.lengthBits ++ q.startBit ++ q.startByte ++ q.dlen
    ++ q.data ++ q.id ++ q.op

/-- The payload operand of a request. -/
def Req.payload (q : Req) : Payload := ⟨q.data, q.dlen⟩

/-- The field operand of a request. -/
def Req.field (q : Req) : Field := ⟨q.startByte, q.startBit, q.lengthBits⟩

/-- An operation that reads the payload is admitted only with a `dlen` of 0 to 8 (R63). -/
def withPayload (q : Req) (i : Instr) : Except DecodeError Instr :=
  if q.payload.wf then .ok i else .error (.badDlen q.dlen)

/-- The operation a request selects: `op` alone decides (R53, R60), and only the ports of R61 are read. -/
def decode (q : Req) : Except DecodeError Instr :=
  match q.op.toNat with
  | 0x0 => .ok (.parseId q.id)
  | 0x1 => .ok (.buildId q.priority q.dataPage q.pduFormat q.pduSpecific q.sourceAddress)
  | 0x2 => .ok (.getSpnDef q.spn)
  | 0x3 => .ok .listPgns
  | 0x4 => .ok .dbStats
  | 0x5 => withPayload q (.extract q.payload q.field)
  | 0x6 => withPayload q (.decodeSpn q.payload q.field q.scale q.offset q.naRaw)
  | 0x7 => withPayload q (.decodeFrame q.id q.payload)
  | 0x8 => .ok (.buildReq q.requesterSa q.targetDa q.pgn)
  | _ => .error (.badOp q.op)

/-- An operation that reads the table (spec/20_memory.md R30). -/
def Instr.readsTable : Instr → Bool
  | .parseId _ => false
  | .buildId _ _ _ _ _ => false
  | .getSpnDef _ => true
  | .listPgns => true
  | .dbStats => true
  | .extract _ _ => false
  | .decodeSpn _ _ _ _ _ => false
  | .decodeFrame _ _ => true
  | .buildReq _ _ _ => false

/-- A request that asks for such an operation (spec/60_exceptions.md R146). -/
def Req.readsTable (q : Req) : Bool :=
  match decode q with
  | .ok i => i.readsTable
  | .error _ => false

/-- Decode a flat request word. -/
def decodeWord (w : ReqWord) : Except DecodeError Instr := decode (Req.ofWord w)

/-- The flat word whose bits are the low `nbits` bits of `w`, all higher bits zero. Bits 429 and above are no bits of
a request (R53) and are dropped (log 22). -/
def tableWord (nbits w : Nat) : ReqWord := BitVec.ofNat 429 (w % 2 ^ nbits)

/-- The instruction the decoder reads from a word whose bits are numbered as spec/opcode_table.json numbers them. -/
def decodeTableWord (nbits w : Nat) : Option Instr := (decodeWord (tableWord nbits w)).toOption

/-- A request with every port at zero: the don't-care value of spec/95_test_vectors.md Part 9. -/
def Req.zero : Req where
  op            := 0
  id            := 0
  data          := 0
  dlen          := 0
  startByte     := 0
  startBit      := 0
  lengthBits    := 0
  scale         := 0
  offset        := 0
  naRaw         := 0
  priority      := 0
  dataPage      := 0
  pduFormat     := 0
  pduSpecific   := 0
  sourceAddress := 0
  requesterSa   := 0
  targetDa      := 0
  pgn           := 0
  spn           := 0

/-- The operation code of each operation (R60). -/
def Instr.opcode : Instr → BitVec 4
  | .parseId _ => 0x0
  | .buildId _ _ _ _ _ => 0x1
  | .getSpnDef _ => 0x2
  | .listPgns => 0x3
  | .dbStats => 0x4
  | .extract _ _ => 0x5
  | .decodeSpn _ _ _ _ _ => 0x6
  | .decodeFrame _ _ => 0x7
  | .buildReq _ _ _ => 0x8

/-- The request that asks for an operation: its code, its operands on the ports of R61, every other port zero. -/
def encode : Instr → Req
  | .parseId i => { Req.zero with op := 0x0, id := i }
  | .buildId p d f s a =>
    { Req.zero with op := 0x1, priority := p, dataPage := d, pduFormat := f, pduSpecific := s, sourceAddress := a }
  | .getSpnDef n => { Req.zero with op := 0x2, spn := n }
  | .listPgns => { Req.zero with op := 0x3 }
  | .dbStats => { Req.zero with op := 0x4 }
  | .extract p f =>
    { Req.zero with op := 0x5, data := p.data, dlen := p.dlen, startByte := f.startByte, startBit := f.startBit,
                    lengthBits := f.lengthBits }
  | .decodeSpn p f sc off na =>
    { Req.zero with op := 0x6, data := p.data, dlen := p.dlen, startByte := f.startByte, startBit := f.startBit,
                    lengthBits := f.lengthBits, scale := sc, offset := off, naRaw := na }
  | .decodeFrame i p => { Req.zero with op := 0x7, id := i, data := p.data, dlen := p.dlen }
  | .buildReq sa da g => { Req.zero with op := 0x8, requesterSa := sa, targetDa := da, pgn := g }

/-- The flat word of an operation's request. -/
def encodeWord (i : Instr) : ReqWord := (encode i).toWord

end Sys2Proof
end

