-- ==== Sys2Proof/Machine/Fetch.lean ====
section
/-! DEFINITION. Taking the next request off the request port (spec/70_reset_and_hazards.md R167). -/

namespace Sys2Proof.Machine

/-- The oldest waiting request and the state without it; none when no request waits. -/
def takeRequest (s : State) : Option (Req × State) :=
  match s.requests with
  | [] => none
  | q :: rest => some (q, { s with requests := rest })

/-- The refusal of a request that selects no operation (spec/60_exceptions.md R146). -/
def refusalOf : DecodeError → Refusal
  | .badOp op => .badOp op
  | .badDlen dlen => .badDlen dlen

/-- A request placed in front of every waiting one, so that it is the next to be taken. -/
def pushRequest (q : Req) (s : State) : State := { s with requests := q :: s.requests }

end Sys2Proof.Machine
end

