-- ==== Sys2Proof/Machine/Step.lean ====
section
/-! DEFINITION. One step: the oldest waiting request is taken and answered (spec/70_reset_and_hazards.md R164, R167).
With no request waiting the block is idle and nothing changes (log 4). -/

namespace Sys2Proof.Machine

/-- One transaction (R2). -/
def step (s : State) : Host.Outcome State Fault Refusal :=
  match takeRequest s with
  | none => .next s
  | some (q, s') =>
    match decode q with
    | .error e => .refused (refusalOf e)
    | .ok i => exec i s'

/-- `s` with the request whose flat word is `w` as the next one to be taken. -/
def State.withFetchWord (s : State) (nbits w : Nat) : State := pushRequest (Req.ofWord (tableWord nbits w)) s

end Sys2Proof.Machine
end

