-- ==== Sys2Proof/Machine/Absences.lean ====
section
/-! DEFINITION. The label of an absent result (spec/60_exceptions.md R141), for use in statements: no port carries it
(R143). Each is read off the same functions the meanings call. -/

namespace Sys2Proof.Machine

/-- The label of a result, if it is absent. -/
def labelOf (r : Except Absence α) : Option Absence :=
  match r with
  | .error a => some a
  | .ok _ => none

/-- GET_SPN_DEF: ABS_UNKNOWN_SPN. -/
def spnDefAbsence (rows : List SpnDefinition) (s : U32) : Option Absence :=
  if (rowsBySpn rows s).isSome then none else some .unknownSpn

/-- EXTRACT: ABS_BAD_LENGTH or ABS_SHORT, in that order (R144). -/
def extractAbsence (p : Payload) (f : Field) : Option Absence := labelOf (readField p f)

/-- DECODE_SPN: as EXTRACT, then ABS_NOT_AVAILABLE (R144). -/
def decodeSpnAbsence (num : Numerics) (p : Payload) (f : Field) (scale offset : F64Bits) (naRaw : U64) :
    Option Absence :=
  labelOf (decodeSpn num p.data p.dlen.toNat f.startByte.toNat f.startBit.toNat f.lengthBits.toNat scale offset naRaw)

/-- DECODE_FRAME as a whole: ABS_UNKNOWN_PGN when the frame's PGN has no rows. -/
def frameAbsence (rows : List SpnDefinition) (id : U32) : Option Absence :=
  if (rowsByPgn rows (parseCanId id).pgn).isEmpty then some .unknownPgn else none

/-- DECODE_FRAME, one row: why its element is left out (each row is judged separately, R144). -/
def rowAbsence (num : Numerics) (p : Payload) (r : SpnDefinition) : Option Absence := labelOf (decodeRow num p r)

end Sys2Proof.Machine
end

