-- ==== Sys2Proof/Machine/HostActions.lean ====
section
/-! DEFINITION. What the host does to the block between steps (spec/00_scope.md R9.8, spec/70_reset_and_hazards.md):
present requests, take responses, build the table once, assert a reset input. None of them is a step. -/

namespace Sys2Proof.Machine

/-- Present a request: it waits behind those presented before it (R167). One that must not be issued yet (R166) is
queued like any other and refused later, never answered (log 26). -/
def State.present (q : Req) (s : State) : State := { s with requests := s.requests ++ [q] }

/-- Take the oldest response that has not been taken; the block keeps nothing of it (R164). -/
def State.takeResponse (s : State) : Option (Response × State) :=
  match s.responses with
  | [] => none
  | r :: rest => some (r, { s with responses := rest })

/-- The block before its table is built (R162). -/
def State.beforeTable (num : Numerics) : State where
  table     := none
  numerics  := num
  requests  := []
  responses := []

/-- Build the table: once, from well-formed rows (R162, R123), and before any request that reads it was presented: such
a request waiting was issued before the table existed, which R146 and R166 refuse (log 26). Other requests may wait
(R162). A second table under a running block is no run of it (R43, U6). -/
def State.buildTable (rows : List SpnDefinition) (s : State) : Host.Outcome State Fault Refusal :=
  match s.table with
  | some _ => .refused .tableReplaced
  | none =>
    if s.requests.any Req.readsTable then .refused .noTable
    else if h : tableWf rows = true then .next { s with table := some ⟨rows, h⟩ } else .refused .malformedTable

/-- Assert the reset input, if the implementation has one (R160): every unanswered request is dropped, no response is
pending (R21), the configuration stays. -/
def State.resetInput (s : State) : State := { s with requests := [], responses := [] }

/-- The request that decodes a payload with a row returned by GET_SPN_DEF: the second half of the pseudo-operation
DECODE_SPN.T (spec/30_encoding.md R66, D25). -/
def decodeWithRow (p : Payload) (r : SpnDefinition) : Instr :=
  .decodeSpn p ⟨BitVec.ofNat 3 r.startByte, BitVec.ofNat 3 r.startBit, BitVec.ofNat 7 r.lengthBits⟩
    r.scale r.offset r.notAvailableRaw

/-- DECODE_SPN.T as the host writes it: no expansion when GET_SPN_DEF returned nothing (R66). -/
def decodeSpnT (p : Payload) (row : Option SpnDefinition) : Option Instr := row.map (decodeWithRow p)

end Sys2Proof.Machine
end

