-- ==== Sys2Proof/Machine/Ports.lean ====
section
/-! DEFINITION. The port form of a response (spec/10_state.md R14, R15, R20; spec/30_encoding.md R54, R57) and the row
layout of the definition ROM (R56). Where R14 and R56 give an order of fields and no numbering of the whole, the first
field is the least significant, as in R53 (log 17). -/

namespace Sys2Proof.Machine

/-- One field on a port: its width in bits and its value. -/
structure PortField where
  width : Nat
  value : Nat
  deriving DecidableEq, Repr

/-- A byte string preceded by its 8-bit length (R56). -/
def stringFields (s : ByteString) : List PortField := ⟨8, s.length⟩ :: s.map (fun b => ⟨8, b.toNat⟩)

/-- The row fields of a GET_SPN_DEF response, in the order of R16 (R14), with the widths of R56. -/
def rowPortFields (r : SpnDefinition) : List PortField :=
  [⟨32, r.spn.toNat⟩] ++ stringFields r.name ++ stringFields r.unit
    ++ [⟨32, r.pgn.toNat⟩, ⟨3, r.startByte⟩, ⟨3, r.startBit⟩, ⟨7, r.lengthBits⟩, ⟨64, r.scale.toNat⟩,
        ⟨64, r.offset.toNat⟩, ⟨64, r.notAvailableRaw.toNat⟩]

/-- The index of the row with an SPN; it is unique by R110 W1 (R57). -/
def rowIndex (rows : List SpnDefinition) (s : U32) : Nat := rows.findIdx (fun r => decide (r.spn = s))

/-- What a port element (row index and value) denotes (R18, R57). -/
def denoteElement (rows : List SpnDefinition) (row : Nat) (value : F64Bits) : Option DecodedSpn :=
  rows[row]?.map (fun r => ⟨r.spn, r.name, value, r.unit⟩)

/-- Bytes as one number, byte `i` on bits `[8*i+7 : 8*i]` (R14, R32). -/
def lanes : List Byte → Nat
  | [] => 0
  | b :: rest => b.toNat + 2 ^ 8 * lanes rest

/-- The fields of a response in the order of R14. An absent result is its `valid` bit alone: its value bits are
unspecified (R15). -/
def Response.portFields (rows : List SpnDefinition) : Response → List PortField
  | .canIdentifier c =>
    [⟨3, c.priority.toNat⟩, ⟨1, c.reserved.toNat⟩, ⟨1, c.dataPage.toNat⟩, ⟨8, c.pduFormat.toNat⟩,
      ⟨8, c.pduSpecific.toNat⟩, ⟨8, c.sourceAddress.toNat⟩, ⟨32, c.pgn.toNat⟩]
  | .canId id => [⟨32, id.toNat⟩]
  | .spnDef none => [⟨1, 0⟩]
  | .spnDef (some r) => ⟨1, 1⟩ :: rowPortFields r
  | .pgns l => ⟨32, l.length⟩ :: l.map (fun p => ⟨32, p.toNat⟩)
  | .stats a b => [⟨32, a.toNat⟩, ⟨32, b.toNat⟩]
  | .raw none => [⟨1, 0⟩]
  | .raw (some v) => [⟨1, 1⟩, ⟨64, v.toNat⟩]
  | .value none => [⟨1, 0⟩]
  | .value (some v) => [⟨1, 1⟩, ⟨64, v.toNat⟩]
  | .decoded l =>
    ⟨32, l.length⟩ ::
      l.flatMap (fun e => [⟨32, e.spn.toNat⟩, ⟨32, rowIndex rows e.spn⟩, ⟨64, e.value.toNat⟩])
  | .request f => [⟨32, f.canId.toNat⟩, ⟨24, lanes f.data⟩]

/-- Fields side by side in one number, the first field least significant. -/
def packFields : List PortField → Nat
  | [] => 0
  | f :: rest => f.value % 2 ^ f.width + 2 ^ f.width * packFields rest

/-- The fields of a ROM row in the order of R56. -/
def rowRomFields (r : SpnDefinition) : List PortField :=
  [⟨32, r.spn.toNat⟩, ⟨32, r.pgn.toNat⟩, ⟨3, r.startBit⟩, ⟨3, r.startByte⟩, ⟨7, r.lengthBits⟩, ⟨64, r.scale.toNat⟩,
    ⟨64, r.offset.toNat⟩, ⟨64, r.notAvailableRaw.toNat⟩] ++ stringFields r.name ++ stringFields r.unit

/-- A ROM row as one number (R56). -/
def romOfRow (r : SpnDefinition) : Nat := packFields (rowRomFields r)

/-- The `n` bytes from bit `pos` of a ROM row. -/
def romBytes (w : Nat) : Nat → Nat → ByteString
  | _, 0 => []
  | pos, n + 1 => BitVec.ofNat 8 (w >>> pos) :: romBytes w (pos + 8) n

/-- The row a ROM number holds: the fixed fields at their places, then the two strings (R56). -/
def rowOfRom (w : Nat) : SpnDefinition :=
  let nameLength := (w >>> 269) % 2 ^ 8
  let unitPos := 277 + 8 * nameLength
  { spn             := BitVec.ofNat 32 w
    pgn             := BitVec.ofNat 32 (w >>> 32)
    startBit        := (w >>> 64) % 2 ^ 3
    startByte       := (w >>> 67) % 2 ^ 3
    lengthBits      := (w >>> 70) % 2 ^ 7
    scale           := BitVec.ofNat 64 (w >>> 77)
    offset          := BitVec.ofNat 64 (w >>> 141)
    notAvailableRaw := BitVec.ofNat 64 (w >>> 205)
    name            := romBytes w 277 nameLength
    unit            := romBytes w (unitPos + 8) ((w >>> unitPos) % 2 ^ 8) }

end Sys2Proof.Machine
end

