-- ==== Sys2Proof/Machine/RealValue.lean ====
section
/-! DEFINITION. The rational number a binary64 number denotes (spec/00_scope.md R8, spec/30_encoding.md R58), and what
"the binary64 number nearest to" means (spec/42_extract_scale.md R101). Only statements use these; no meaning does. -/

namespace Sys2Proof.Machine

/-- The rational number `(-1)^neg * m * 2^e`. -/
def dyadic (neg : Bool) (m : Nat) (e : Int) : ℚ := (if neg then -1 else 1) * (m : ℚ) * (2 : ℚ) ^ e

/-- The number an unpacked binary64 denotes; none for an infinity or a NaN. -/
def Fp.toRat : Fp → Option ℚ
  | .nan => none
  | .inf _ => none
  | .fin neg m e => some (dyadic neg m e)

/-- The number the 64 bits of a binary64 denote. -/
def f64ToRat (b : F64Bits) : Option ℚ := (Fp.ofBits b).toRat

/-- A number that is exactly a binary64 number. -/
def IsF64 (x : ℚ) : Prop := ∃ b : F64Bits, f64ToRat b = some x

/-- From this magnitude on, rounding to nearest gives an infinity: half a unit in the last place above the largest
finite number (R102.3). -/
def overflowBound : ℚ := 2 ^ 1024 - 2 ^ 970

/-- `r` is the finite binary64 number nearest to `x`, the one with an even significand if two are equally near (R101). -/
def NearestEven (x : ℚ) (r : Fp) : Prop :=
  ∃ neg n q, r = .fin neg n q ∧ IsF64 (dyadic neg n q) ∧
    (∀ y, IsF64 y → |dyadic neg n q - x| ≤ |y - x|) ∧
    (∀ y, IsF64 y → y ≠ dyadic neg n q → |y - x| = |dyadic neg n q - x| → n % 2 = 0)

end Sys2Proof.Machine
end

