-- ==== Sys2Proof/Safety.lean ====
section
/-! DEFINITION. What a safe run is, in the terms the statements use. -/

namespace Sys2Proof

open Machine

/-- An operation is answered: one response is queued and nothing else changes (spec/60_exceptions.md R140,
spec/20_memory.md R38). -/
def Answers (i : Instr) (s : State) (r : Response) : Prop := exec i s = .next (s.addResponse r)

/-- Whether a response is of the kind spec/30_encoding.md R61 gives an operation (the records of spec/10_state.md
R14). -/
def Machine.Response.answersTo : Response → Instr → Bool
  | .canIdentifier _, .parseId _ => true
  | .canId _, .buildId _ _ _ _ _ => true
  | .spnDef _, .getSpnDef _ => true
  | .pgns _, .listPgns => true
  | .stats _ _, .dbStats => true
  | .raw _, .extract _ _ => true
  | .value _, .decodeSpn _ _ _ _ _ => true
  | .decoded _, .decodeFrame _ _ => true
  | .request _, .buildReq _ _ _ => true
  | _, _ => false

/-- An operation the block may be asked for in a state: inside the input contract, and the table is built if it is read
(spec/60_exceptions.md R146, spec/70_reset_and_hazards.md R162). -/
def Admitted (i : Instr) (s : State) : Prop := i.wf = true ∧ (i.readsTable = true → s.table.isSome = true)

/-- Every waiting request may be asked for. -/
def Ready (s : State) : Prop := ∀ q ∈ s.requests, ∃ i, decode q = .ok i ∧ Admitted i s

/-- What a response never breaks: the PGN is the derived one (R81), a built identifier has bits 31:29 and 25 clear
(R84), a returned row is a row of the table (R114), a PGN list holds each PGN of the table once (R118), the counts are
those of the table (R120), decoded elements come from distinct rows in registration order (R130), a request frame is a
priority 6 Request-PGN frame of three bytes (R136). -/
def LegalResponse (table : Option SpnTable) : Response → Prop
  | .canIdentifier c => c.pgn = pgnOf c.dataPage c.pduFormat c.pduSpecific
  | .canId id => id &&& 0xE2000000 = 0
  | .spnDef none => table.isSome = true
  | .spnDef (some r) => ∃ t, table = some t ∧ r ∈ t.rows
  | .pgns l => ∃ t, table = some t ∧ l.Nodup ∧ ∀ p, p ∈ l ↔ ∃ r ∈ t.rows, r.pgn = p
  | .stats a b => ∃ t, table = some t ∧ a.toNat = t.rows.length ∧ b.toNat = (distinctPgns t.rows).length
  | .raw _ => True
  | .value _ => True
  | .decoded l =>
    ∃ t, table = some t ∧
      (l.map (fun e => (e.spn, e.name, e.unit))).Sublist (t.rows.map (fun r => (r.spn, r.name, r.unit)))
  | .request f => f.canId &&& 0xFFFF0000 = 0x18EA0000 ∧ f.data.length = 3

/-- Every response given and not yet taken is legal for the table of the block. -/
def ResponsesLegal (s : State) : Prop := ∀ r ∈ s.responses, LegalResponse s.table r

/-- Two requests with the same operation code that agree on every port that operation reads (spec/30_encoding.md
R61). -/
def SamePortsRead (q q' : Req) : Prop :=
  q.op = q'.op ∧
  match q.op.toNat with
  | 0x0 => q.id = q'.id
  | 0x1 => q.priority = q'.priority ∧ q.dataPage = q'.dataPage ∧ q.pduFormat = q'.pduFormat
      ∧ q.pduSpecific = q'.pduSpecific ∧ q.sourceAddress = q'.sourceAddress
  | 0x2 => q.spn = q'.spn
  | 0x5 => q.data = q'.data ∧ q.dlen = q'.dlen ∧ q.startByte = q'.startByte ∧ q.startBit = q'.startBit
      ∧ q.lengthBits = q'.lengthBits
  | 0x6 => q.data = q'.data ∧ q.dlen = q'.dlen ∧ q.startByte = q'.startByte ∧ q.startBit = q'.startBit
      ∧ q.lengthBits = q'.lengthBits ∧ q.scale = q'.scale ∧ q.offset = q'.offset ∧ q.naRaw = q'.naRaw
  | 0x7 => q.id = q'.id ∧ q.data = q'.data ∧ q.dlen = q'.dlen
  | 0x8 => q.requesterSa = q'.requesterSa ∧ q.targetDa = q'.targetDa ∧ q.pgn = q'.pgn
  | _ => True

/-- Two payloads of the same length with the same bytes below it (spec/30_encoding.md R55). -/
def SameBytes (p p' : Payload) : Prop :=
  p.dlen = p'.dlen ∧ ∀ i, i < p.dlen.toNat → byteLane p.data i = byteLane p'.data i

/-- The second payload begins with all the bytes of the first (spec/42_extract_scale.md R92.4). -/
def Extends (p p' : Payload) : Prop :=
  p.dlen.toNat ≤ p'.dlen.toNat ∧ ∀ i, i < p.dlen.toNat → byteLane p.data i = byteLane p'.data i

end Sys2Proof
end

