-- ==== Sys2Proof/Certificates/Slice0/Obligations.lean ====
section
/-! DEFINITION. The statements for the provers. OBLIGATIONS.json says of each which rule of spec/ it formalises. -/

open Sys2Proof Sys2Proof.Machine

/-! ### Reset and the host's actions -/

/-- After reset no response is pending (R21) and no request waits; asserting the reset input drops the unanswered
requests of any state and leaves the configuration as it was (R160). The model's choices: a table is built in
State.reset (log 3), and the reset input is a host action that empties the response queue too (log 21). -/
def Obligations.ResetKeepsConfiguration : Prop :=
  State.reset.requests = [] ∧ State.reset.responses = [] ∧ State.reset.table.isSome = true ∧
  ∀ s : State, s.resetInput.table = s.table ∧ s.resetInput.numerics = s.numerics ∧
    s.resetInput.requests = [] ∧ s.resetInput.responses = []

/-- The conditions W1 to W7 of a well-formed table (R110). -/
def Obligations.TableConditions : Prop :=
  ∀ rows : List SpnDefinition, tableWf rows = true ↔
    (∀ j k (hj : j < rows.length) (hk : k < rows.length), (rows[j]'hj).spn = (rows[k]'hk).spn → j = k) ∧
    (∀ r ∈ rows, r.startByte ≤ 7 ∧ r.startBit ≤ 7 ∧ 1 ≤ r.lengthBits ∧ r.lengthBits ≤ 64 ∧
      r.startByte * 8 + r.startBit + r.lengthBits ≤ 64 ∧
      r.notAvailableRaw.toNat + 1 = 2 ^ r.lengthBits ∧
      (f64ToRat r.scale).isSome = true ∧ (f64ToRat r.offset).isSome = true) ∧
    rows.length < 2 ^ 32

/-- The table is built once, from well-formed rows only, before any request that reads it was presented, and building it
changes nothing else (R123, R162, R43, R166). That it may be built while other requests wait, that an early table-reading
request is refused there, and that this is judged before the rows are, is the model's choice, log 26; that other rows and
a second table are refused by these names, log 16. -/
def Obligations.TableIsBuiltOnceFromWellFormedRows : Prop :=
  ∀ (s : State) (rows : List SpnDefinition),
    (s.table = none → (∀ q ∈ s.requests, ∀ i, decode q = .ok i → i.readsTable = false) → tableWf rows = true →
      ∃ t : SpnTable, t.rows = rows ∧ s.buildTable rows = .next { s with table := some t }) ∧
    (s.table = none → (∃ q ∈ s.requests, ∃ i, decode q = .ok i ∧ i.readsTable = true) →
      s.buildTable rows = .refused .noTable) ∧
    (s.table = none → (∀ q ∈ s.requests, ∀ i, decode q = .ok i → i.readsTable = false) → tableWf rows = false →
      s.buildTable rows = .refused .malformedTable) ∧
    (s.table.isSome = true → s.buildTable rows = .refused .tableReplaced)

/-- A presented request is answered behind those presented before it, and the host takes responses oldest first (R167).
The model's choices: the two queues (log 1), and that presenting does not look at the table, so that a request R166 says
must not be issued yet is queued and refused later (log 26). -/
def Obligations.ResponsesAreTakenOldestFirst : Prop :=
  ∀ (s : State) (q : Req) (r : Response) (rest : List Response),
    (s.present q).requests = s.requests ++ [q] ∧ (s.present q).responses = s.responses ∧
    (s.responses = r :: rest → s.takeResponse = some (r, { s with responses := rest })) ∧
    (s.responses = [] → s.takeResponse = none)

/-! ### Encoding and decoding -/

/-- Request words written out by the spec (Part 9 of its test vectors, and R53 by hand for DECODE_FRAME) decode to the
operations they stand for. -/
def Obligations.SpecRequestWordsDecode : Prop :=
  decodeWord 0x0000000000001FDCA01FC000000000000000000000000000000000000000000000000000000000000000000000000000000000000008
      = .ok (.buildReq 0xFE 0x00 65253) ∧
  decodeWord 0x00000000000000000000000000000000000000000000000000000000000000000000000000000000000000000000000000018EA00FE0
      = .ok (.parseId 0x18EA00FE) ∧
  decodeWord 0x0000000DC000000000000000000000000000000000000000000000000000000000000000000000000000000000000000000000000002
      = .ok (.getSpnDef 110) ∧
  decodeWord 0x000000000000000000000000000000000000000000001FF80880000000000007FE000000000000020080000000000000082000000006
      = .ok (.decodeSpn ⟨0x82, 8⟩ ⟨0, 0, 8⟩ 0x3FF0000000000000 0xC044000000000000 0xFF) ∧
  decodeWord 0x0000000000000000000000009E0000600000000000000000000000000000000000000000000000000000000000000000000000000001
      = .ok (.buildId 3 0 0xF0 0x04 0x00) ∧
  decodeWord 0x000000000000000000000000000000000000000000000000000000000000000000000000000000040380000004E20000000000000005
      = .ok (.extract ⟨0x0000004E20000000, 8⟩ ⟨3, 0, 16⟩) ∧
  decodeWord 0x4 = .ok .dbStats ∧
  decodeWord 0x3 = .ok .listPgns ∧
  decodeWord 0x00000000000000000000000000000000000000000000000000000000000000000000000000000000008FFFFFFFF0001194018FEE5007
      = .ok (.decodeFrame 0x18FEE500 ⟨0xFFFFFFFF00011940, 8⟩)

/-- The flat request word and the record of ports hold the same bits: each is read back from the other, and the ports
stand at the bits of R53's table (widths and order are the spec's own D3). -/
def Obligations.FlatWordAndPortRecordAgree : Prop :=
  (∀ q : Req, Req.ofWord q.toWord = q) ∧ (∀ w : ReqWord, (Req.ofWord w).toWord = w) ∧
  ∀ q : Req,
    q.toWord.extractLsb' 0 4 = q.op ∧ q.toWord.extractLsb' 4 32 = q.id ∧
    q.toWord.extractLsb' 36 64 = q.data ∧ q.toWord.extractLsb' 100 4 = q.dlen ∧
    q.toWord.extractLsb' 104 3 = q.startByte ∧ q.toWord.extractLsb' 107 3 = q.startBit ∧
    q.toWord.extractLsb' 110 7 = q.lengthBits ∧ q.toWord.extractLsb' 117 64 = q.scale ∧
    q.toWord.extractLsb' 181 64 = q.offset ∧ q.toWord.extractLsb' 245 64 = q.naRaw ∧
    q.toWord.extractLsb' 309 8 = q.priority ∧ q.toWord.extractLsb' 317 8 = q.dataPage ∧
    q.toWord.extractLsb' 325 8 = q.pduFormat ∧ q.toWord.extractLsb' 333 8 = q.pduSpecific ∧
    q.toWord.extractLsb' 341 8 = q.sourceAddress ∧ q.toWord.extractLsb' 349 8 = q.requesterSa ∧
    q.toWord.extractLsb' 357 8 = q.targetDa ∧ q.toWord.extractLsb' 365 32 = q.pgn ∧
    q.toWord.extractLsb' 397 32 = q.spn

/-- Decoding the flat word of a well-formed operation gives the operation back, every operand at every value, for all
nine operations (R53, R60, R61). -/
def Obligations.DecodeReadsBackEncode : Prop :=
  ∀ i : Instr, i.wf = true → decodeWord (encodeWord i) = .ok i

/-- Decoding is total. Codes 0x9 to 0xF select no operation (R62); a payload operation with a `dlen` above 8 is rejected
by name (R63; that the decoder is where it is rejected is the model's, log 11); every other request decodes to a
well-formed operation of its own code. -/
def Obligations.DecodingRejectsExactlyReservedRequests : Prop :=
  ∀ q : Req,
    (9 ≤ q.op.toNat → decode q = .error (.badOp q.op)) ∧
    (5 ≤ q.op.toNat ∧ q.op.toNat ≤ 7 ∧ 9 ≤ q.dlen.toNat → decode q = .error (.badDlen q.dlen)) ∧
    (q.op.toNat ≤ 8 ∧ ¬ (5 ≤ q.op.toNat ∧ q.op.toNat ≤ 7 ∧ 9 ≤ q.dlen.toNat) →
      ∃ i, decode q = .ok i ∧ i.wf = true ∧ i.opcode = q.op)

/-- A port R61 does not list for an operation cannot change its response: two requests with the same code that agree on
the listed ports lead to the same outcome from every state. The response is of the kind R61 gives the operation. -/
def Obligations.UnlistedPortsHaveNoEffect : Prop :=
  (∀ (q q' : Req) (s : State) (rest : List Req), SamePortsRead q q' →
    step { s with requests := q :: rest } = step { s with requests := q' :: rest }) ∧
  ∀ (i : Instr) (s t : State), exec i s = .next t → ∃ r, t = s.addResponse r ∧ r.answersTo i = true

/-! ### The step -/

/-- A step takes the oldest waiting request and runs the operation it decodes to on the state without that request; with
none waiting nothing changes. A fetched word is run by the very next step. -/
def Obligations.StepRunsTheDecodedRequest : Prop :=
  (∀ (s : State) (q : Req) (rest : List Req) (i : Instr), s.requests = q :: rest → decode q = .ok i →
    step s = exec i { s with requests := rest }) ∧
  (∀ s : State, s.requests = [] → step s = .next s) ∧
  (∀ (s : State) (nbits w : Nat) (i : Instr), decodeTableWord nbits w = some i →
    step (s.withFetchWord nbits w) = exec i s)

/-- The refusals are those of R146 and no others. Two points are the model's choice: with no table and a DECODE_FRAME of
`dlen` 9 to 15 both REF_NO_TABLE and REF_BAD_DLEN hold, and REF_BAD_DLEN is given (log 11); a step gives REF_NO_TABLE
when it takes the request, not before (log 26). -/
def Obligations.RefusalsAreThoseOfTheContract : Prop :=
  ∀ (s : State) (q : Req) (rest : List Req), s.requests = q :: rest →
    (step s = .refused (.badOp q.op) ↔ 9 ≤ q.op.toNat) ∧
    (step s = .refused (.badDlen q.dlen) ↔ 5 ≤ q.op.toNat ∧ q.op.toNat ≤ 7 ∧ 9 ≤ q.dlen.toNat) ∧
    (step s = .refused .noTable ↔
      s.table = none ∧ ((2 ≤ q.op.toNat ∧ q.op.toNat ≤ 4) ∨ (q.op.toNat = 7 ∧ q.dlen.toNat ≤ 8))) ∧
    (∀ r, step s = .refused r → r = .badOp q.op ∨ r = .badDlen q.dlen ∨ r = .noTable)

/-- No operation fails: each, inside the input contract and with the table built if it reads it, is answered in every
state by one response, behind the earlier ones; and no request raises an exception (R140). -/
def Obligations.EveryAdmittedOperationIsAnswered : Prop :=
  (∀ (i : Instr) (s : State), i.wf = true → (i.readsTable = true → s.table.isSome = true) → ∃ r, Answers i s r) ∧
  ∀ (s : State) (f : Fault), step s ≠ .fault f

/-- The answer to an operation depends on the operation and the configuration only, not on earlier or waiting requests:
two states with the same table and numerics give the same answer (R165). For DECODE_FRAME, of the payload only the
bytes below its length count (R132). -/
def Obligations.AnswerDependsOnRequestAndConfigurationOnly : Prop :=
  ∀ (i : Instr) (s s' : State), s.table = s'.table → s.numerics = s'.numerics →
    (∀ r, Answers i s r ↔ Answers i s' r) ∧ (∀ r, exec i s = .refused r ↔ exec i s' = .refused r) ∧
    ∀ (id : U32) (p p' : Payload) (r : Response), SameBytes p p' →
      (Answers (.decodeFrame id p) s r ↔ Answers (.decodeFrame id p') s' r)

/-- The frame of all nine operations: the table, the numerics, the waiting requests and the earlier responses are
unchanged; one response is added (R38, R164). -/
def Obligations.OperationsChangeNothingButOneResponse : Prop :=
  ∀ (i : Instr) (s t : State), exec i s = .next t →
    t.table = s.table ∧ t.numerics = s.numerics ∧ t.requests = s.requests ∧ ∃ r, t.responses = s.responses ++ [r]

/-- While every waiting request may be asked for, a step answers and this stays so. -/
def Obligations.ReadyBlockAnswersAndStaysReady : Prop :=
  ∀ s : State, Ready s → ∃ t, step s = .next t ∧ Ready t ∧ t.requests = s.requests.tail

/-- After reset every waiting request may be asked for, and every pending response is legal: both queues are empty
(that there are queues is the model's, log 1). -/
def Obligations.ResetIsReadyAndLegal : Prop := Ready State.reset ∧ ResponsesLegal State.reset

/-- Every step keeps every pending response legal for the block's table. Of what is legal, the clear bits 31:29 and 25 of
an identifier are the spec's own D7 (log 12), and the priority 6 of a request frame its D9 (log 13). -/
def Obligations.StepsKeepResponsesLegal : Prop :=
  ∀ s t : State, ResponsesLegal s → step s = .next t → ResponsesLegal t

/-- For each configuration there is one function from requests to responses such that the block, from every state with
that configuration whose waiting requests may be asked for, answers each of them with that function's value, in order
(R40, R165, R167). The queues are the model's (log 1), the order the spec's own D18. -/
def Obligations.RunAnswersEachRequestIndependentlyInOrder : Prop :=
  ∀ (table : Option SpnTable) (num : Numerics), ∃ answer : Req → Response,
    ∀ s : State, s.table = table → s.numerics = num → Ready s →
      Host.Core.run core s.requests.length s =
        .next ({ s with requests := [], responses := s.responses ++ s.requests.map answer } : State)

/-! ### The identifier codec -/

/-- Code 0x0 is PARSE_ID, answered in every state with the fields of the identifier (R80); bits 31:29 have no effect. -/
def Obligations.ParseIdReturnsTheFields : Prop :=
  (∀ q : Req, q.op = 0x0 → decode q = .ok (.parseId q.id)) ∧
  ∀ (id : U32) (s : State),
    (∃ c, Answers (.parseId id) s (.canIdentifier c) ∧
      c.priority.toNat = id.toNat / 2 ^ 26 % 2 ^ 3 ∧ c.reserved.toNat = id.toNat / 2 ^ 25 % 2 ∧
      c.dataPage.toNat = id.toNat / 2 ^ 24 % 2 ∧ c.pduFormat.toNat = id.toNat / 2 ^ 16 % 2 ^ 8 ∧
      c.pduSpecific.toNat = id.toNat / 2 ^ 8 % 2 ^ 8 ∧ c.sourceAddress.toNat = id.toNat % 2 ^ 8 ∧
      c.pgn = pgnOf c.dataPage c.pduFormat c.pduSpecific) ∧
    exec (.parseId id) s = exec (.parseId (id &&& 0x1FFFFFFF)) s

/-- The PGN derivation (R81). -/
def Obligations.PgnFollowsThePduFormat : Prop :=
  ∀ (dp : BitVec 1) (pf ps : Byte),
    (240 ≤ pf.toNat → (pgnOf dp pf ps).toNat = dp.toNat * 2 ^ 16 + pf.toNat * 2 ^ 8 + ps.toNat) ∧
    (pf.toNat < 240 → (pgnOf dp pf ps).toNat = dp.toNat * 2 ^ 16 + pf.toNat * 2 ^ 8) ∧
    (pgnOf dp pf ps).toNat ≤ 0x1FFFF

/-- The reading of `pdu_specific` (R82): PARSE_ID returns it unchanged; it is the destination exactly under PDU1, and under PDU2 the low byte of the PGN. -/
def Obligations.PduSpecificIsTheDestinationUnderPdu1 : Prop :=
  ∀ (id : U32) (s : State), ∃ c, Answers (.parseId id) s (.canIdentifier c) ∧
    c.pduSpecific.toNat = id.toNat / 2 ^ 8 % 2 ^ 8 ∧
    (c.pduFormat.toNat < 240 → destination c = some c.pduSpecific) ∧
    (240 ≤ c.pduFormat.toNat → destination c = none ∧ c.pgn.toNat % 2 ^ 8 = c.pduSpecific.toNat)

/-- Code 0x1 is BUILD_ID, answered in every state with the five operands cut to their fields and put in place (R84). The
packing function is defined for operands of any width by the same truncations. Nothing else stands in the word: that is
the spec's own D7, log 12. -/
def Obligations.BuildIdPacksTruncatedFields : Prop :=
  (∀ q : Req, q.op = 0x1 →
    decode q = .ok (.buildId q.priority q.dataPage q.pduFormat q.pduSpecific q.sourceAddress)) ∧
  (∀ (p d f ps sa : Byte) (s : State),
    Answers (.buildId p d f ps sa) s (.canId (buildCanId p.toNat d.toNat f.toNat ps.toNat sa.toNat))) ∧
  ∀ p d f ps sa : Nat,
    (buildCanId p d f ps sa).toNat =
      p % 8 * 2 ^ 26 + d % 2 * 2 ^ 24 + f % 256 * 2 ^ 16 + ps % 256 * 2 ^ 8 + sa % 256

/-- Build then parse gives the truncated fields back, the reserved bit 0 and the derived PGN (R85). -/
def Obligations.BuildThenParseGivesTheFieldsBack : Prop :=
  ∀ (p d f ps sa : Byte) (s : State), ∃ id c,
    Answers (.buildId p d f ps sa) s (.canId id) ∧ Answers (.parseId id) s (.canIdentifier c) ∧
    c.priority.toNat = p.toNat % 8 ∧ c.reserved = 0 ∧ c.dataPage.toNat = d.toNat % 2 ∧
    c.pduFormat = f ∧ c.pduSpecific = ps ∧ c.sourceAddress = sa ∧
    c.pgn = pgnOf (BitVec.ofNat 1 d.toNat) f ps

/-- Parse then build gives the identifier with bits 31:29 and bit 25 cleared, and the parsed record holds all of bits
28:0 (R86). -/
def Obligations.ParseThenBuildClearsFourBits : Prop :=
  ∀ (id : U32) (s : State), ∃ c,
    Answers (.parseId id) s (.canIdentifier c) ∧
    Answers (.buildId (c.priority.setWidth 8) (c.dataPage.setWidth 8) c.pduFormat c.pduSpecific c.sourceAddress) s
      (.canId (id &&& 0x1DFFFFFF)) ∧
    id.extractLsb' 0 29 =
      c.priority ++ c.reserved ++ c.dataPage ++ c.pduFormat ++ c.pduSpecific ++ c.sourceAddress

/-! ### The definition database -/

/-- Code 0x2 is GET_SPN_DEF, answered with a table built by the row that has the SPN, whole, or by nothing when no row
has it (R114). -/
def Obligations.GetSpnDefReturnsTheRow : Prop :=
  (∀ q : Req, q.op = 0x2 → decode q = .ok (.getSpnDef q.spn)) ∧
  ∀ (s : State) (t : SpnTable) (spn : U32), s.table = some t →
    (∀ r ∈ t.rows, r.spn = spn → Answers (.getSpnDef spn) s (.spnDef (some r))) ∧
    ((∀ r ∈ t.rows, r.spn ≠ spn) → Answers (.getSpnDef spn) s (.spnDef none))

/-- Every row is found by its SPN and listed under its PGN, nothing is found that is not a row, and the list under a PGN
keeps the registration order (R111, R112, and so R113). -/
def Obligations.IndicesDescribeTheOneTable : Prop :=
  ∀ t : SpnTable,
    (∀ r ∈ t.rows, rowsBySpn t.rows r.spn = some r) ∧
    (∀ s r, rowsBySpn t.rows s = some r → r ∈ t.rows ∧ r.spn = s) ∧
    (∀ s, (∀ r ∈ t.rows, r.spn ≠ s) → rowsBySpn t.rows s = none) ∧
    (∀ p r, r ∈ rowsByPgn t.rows p ↔ r ∈ t.rows ∧ r.pgn = p) ∧
    (∀ p, (rowsByPgn t.rows p).Sublist t.rows)

/-- Code 0x3 is LIST_PGNS, answered with a table built by each PGN of the table once (R118), in order of first appearance
(the order is the spec's own D14, log 9). -/
def Obligations.ListPgnsGivesEachPgnOnceInOrder : Prop :=
  (∀ q : Req, q.op = 0x3 → decode q = .ok .listPgns) ∧
  ∀ (s : State) (t : SpnTable), s.table = some t → ∃ l : List U32, Answers .listPgns s (.pgns l) ∧
    l.Nodup ∧ (∀ p, p ∈ l ↔ ∃ r ∈ t.rows, r.pgn = p) ∧ l.length ≤ t.rows.length ∧
    l.Pairwise (fun p p' =>
      t.rows.findIdx (fun r => decide (r.pgn = p)) < t.rows.findIdx (fun r => decide (r.pgn = p')))

/-- Code 0x4 is DB_STATS, answered with a table built by the number of rows and the number of distinct PGNs, neither cut
by the 32-bit ports (R120). -/
def Obligations.DbStatsCountsRowsAndPgns : Prop :=
  (∀ q : Req, q.op = 0x4 → decode q = .ok .dbStats) ∧
  ∀ (s : State) (t : SpnTable), s.table = some t → ∃ a b : U32, Answers .dbStats s (.stats a b) ∧
    a.toNat = t.rows.length ∧ b.toNat = (t.rows.map (fun r => r.pgn)).toFinset.card

/-- The coverage law (R121). -/
def Obligations.StatsAgreeWithLookups : Prop :=
  ∀ (s : State) (t : SpnTable), s.table = some t →
    ∃ (a b : U32) (l keys : List U32), Answers .dbStats s (.stats a b) ∧ Answers .listPgns s (.pgns l) ∧
      keys.Nodup ∧ (∀ k, k ∈ keys ↔ (rowsBySpn t.rows k).isSome = true) ∧ a.toNat = keys.length ∧
      b.toNat = l.length ∧
      (∀ p, rowsByPgn t.rows p ≠ [] ↔ p ∈ l) ∧
      (l.map (fun p => (rowsByPgn t.rows p).length)).sum = t.rows.length

/-! ### The shifter -/

/-- The payload is little-endian: bit `b` of byte `i` is bit `8*i + b` of the stream (R31). -/
def Obligations.StreamIsLittleEndian : Prop :=
  ∀ (data : BitVec 64) (dlen : Nat), dlen ≤ 8 →
    stream data dlen = ∑ i ∈ Finset.range dlen, (byteLane data i).toNat * 2 ^ (8 * i) ∧
    (∀ i b, i < dlen → b < 8 → (stream data dlen).testBit (8 * i + b) = (byteLane data i).getLsbD b) ∧
    stream data dlen < 2 ^ (8 * dlen)

/-- A narrow field inside a wide one has the value of the corresponding bits of the wide one (R37). -/
def Obligations.NestedFieldsReadTheSameBits : Prop :=
  ∀ (data : BitVec 64) (dlen pos n pos2 n2 : Nat), pos ≤ pos2 → pos2 + n2 ≤ pos + n →
    memRead data dlen pos2 n2 = (memRead data dlen pos n >>> (pos2 - pos)) % 2 ^ n2

/-- Code 0x5 is EXTRACT. With a payload of at most 8 bytes it is answered in every state: by nothing exactly when the length is 0 or
above 64 or the payload is too short, and otherwise by the value whose bit `i` is bit `pos + i` of the payload for `i`
below the length and 0 above (R90). -/
def Obligations.ExtractReadsTheBitWindow : Prop :=
  (∀ q : Req, q.op = 0x5 → q.dlen.toNat ≤ 8 → decode q = .ok (.extract q.payload q.field)) ∧
  ∀ (p : Payload) (f : Field) (s : State), p.dlen.toNat ≤ 8 →
    let L := f.lengthBits.toNat
    let need := f.startByte.toNat + (f.startBit.toNat + L + 7) / 8
    (L = 0 ∨ 64 < L ∨ p.dlen.toNat < need → Answers (.extract p f) s (.raw none)) ∧
    (1 ≤ L → L ≤ 64 → need ≤ p.dlen.toNat → ∃ raw : U64, Answers (.extract p f) s (.raw (some raw)) ∧
      ∀ i, raw.getLsbD i =
        (decide (i < L) &&
          (byteLane p.data ((f.startByte.toNat * 8 + f.startBit.toNat + i) / 8)).getLsbD
            ((f.startByte.toNat * 8 + f.startBit.toNat + i) % 8)))

/-- The equivalent forms of the bounds test (R92). -/
def Obligations.BoundsTestForms : Prop :=
  ∀ (p : Payload) (f : Field) (s : State), p.dlen.toNat ≤ 8 →
    let L := f.lengthBits.toNat
    let pos := f.startByte.toNat * 8 + f.startBit.toNat
    (1 ≤ L → (fits p.dlen.toNat f.startByte.toNat f.startBit.toNat L = true ↔ pos + L ≤ 8 * p.dlen.toNat)) ∧
    (∀ raw, Answers (.extract p f) s (.raw (some raw)) → pos + L ≤ 64 ∧ pos ≤ 63) ∧
    (1 ≤ L → 64 < pos + L → Answers (.extract p f) s (.raw none)) ∧
    (∀ p' raw, p'.dlen.toNat ≤ 8 → p.dlen.toNat ≤ p'.dlen.toNat →
      (∀ i, i < bytesNeeded f.startByte.toNat f.startBit.toNat L → byteLane p.data i = byteLane p'.data i) →
      Answers (.extract p f) s (.raw (some raw)) → Answers (.extract p' f) s (.raw (some raw)))

/-- The lanes at index `dlen` and above are ignored by the three operations that read the payload, and an empty payload
is legal and makes every field absent (R55). -/
def Obligations.LanesAboveTheLengthAreIgnored : Prop :=
  ∀ (p p' : Payload) (f : Field) (sc off na : U64) (id : U32) (s : State),
    (SameBytes p p' →
      exec (.extract p f) s = exec (.extract p' f) s ∧
      exec (.decodeSpn p f sc off na) s = exec (.decodeSpn p' f sc off na) s ∧
      exec (.decodeFrame id p) s = exec (.decodeFrame id p') s) ∧
    (p.dlen = 0 → Answers (.extract p f) s (.raw none) ∧ Answers (.decodeSpn p f sc off na) s (.value none) ∧
      (s.table.isSome = true → Answers (.decodeFrame id p) s (.decoded [])))

/-! ### The sentinel comparator and the scaler -/

/-- Code 0x6 is DECODE_SPN. With a payload of at most 8 bytes it follows the three steps of R100 on the answer of
EXTRACT. -/
def Obligations.DecodeSpnFollowsItsThreeSteps : Prop :=
  (∀ q : Req, q.op = 0x6 → q.dlen.toNat ≤ 8 →
    decode q = .ok (.decodeSpn q.payload q.field q.scale q.offset q.naRaw)) ∧
  ∀ (p : Payload) (f : Field) (sc off : F64Bits) (na : U64) (s : State), p.wf = true →
    ∃ e : Option U64, Answers (.extract p f) s (.raw e) ∧
      (e = none → Answers (.decodeSpn p f sc off na) s (.value none)) ∧
      (e = some na → Answers (.decodeSpn p f sc off na) s (.value none)) ∧
      (∀ raw, e = some raw → raw ≠ na →
        Answers (.decodeSpn p f sc off na) s (.value (some (scaleValue s.numerics raw sc off))))

/-- The sentinel law (R105): with the all-ones sentinel of its length, a field that can be read has no value exactly when
all its bits are 1, whatever the scale and the offset are. -/
def Obligations.AllOnesFieldHasNoValue : Prop :=
  ∀ (p : Payload) (f : Field) (sc off : F64Bits) (na : U64) (s : State),
    p.dlen.toNat ≤ 8 → 1 ≤ f.lengthBits.toNat → f.lengthBits.toNat ≤ 64 →
    na.toNat + 1 = 2 ^ f.lengthBits.toNat →
    f.startByte.toNat * 8 + f.startBit.toNat + f.lengthBits.toNat ≤ 8 * p.dlen.toNat →
      ((∀ i, i < f.lengthBits.toNat →
          (stream p.data p.dlen.toNat).testBit (f.startByte.toNat * 8 + f.startBit.toNat + i) = true) →
        Answers (.decodeSpn p f sc off na) s (.value none)) ∧
      ((∃ i, i < f.lengthBits.toNat ∧
          (stream p.data p.dlen.toNat).testBit (f.startByte.toNat * 8 + f.startBit.toNat + i) = false) →
        ∃ v, Answers (.decodeSpn p f sc off na) s (.value (some v)))

/-- The exactness property of R101, for the reference numerics and for every other admissible one: when the raw value,
the product and the sum are each exactly a binary64 number, the result is that sum. -/
def Obligations.ScalerIsExactInTheExactRegime : Prop :=
  ∀ (num : Numerics) (raw : U64) (scale offset : F64Bits) (a b : ℚ),
    f64ToRat scale = some a → f64ToRat offset = some b →
    IsF64 (raw.toNat : ℚ) → IsF64 ((raw.toNat : ℚ) * a) → IsF64 ((raw.toNat : ℚ) * a + b) →
      f64ToRat (scaleValue num raw scale offset) = some ((raw.toNat : ℚ) * a + b)

/-- The rounding of the reference numerics: the nearest binary64 number, a tie to the even one, and an infinity of the
same sign from the overflow bound on (R101, R102.3). -/
def Obligations.RoundingIsToNearestTiesToEven : Prop :=
  ∀ (neg : Bool) (m : Nat) (e : Int),
    (|dyadic neg m e| < overflowBound → NearestEven (dyadic neg m e) (roundFp neg m e)) ∧
    (overflowBound ≤ |dyadic neg m e| → roundFp neg m e = .inf neg)

/-- The reference scaler rounds three times: the conversion, the product and the sum are each the nearest binary64
number, with no fused step, and the response carries the last of them (R101). -/
def Obligations.ReferenceScalerRoundsEachStep : Prop :=
  ∀ (raw : U64) (scale offset : F64Bits) (a b : ℚ), f64ToRat scale = some a → f64ToRat offset = some b →
    ∃ c, (Fp.cvt raw.toNat).toRat = some c ∧ NearestEven (raw.toNat : ℚ) (Fp.cvt raw.toNat) ∧
      (|c * a| < overflowBound → ∃ m, (Fp.mul (Fp.cvt raw.toNat) (Fp.ofBits scale)).toRat = some m ∧
        NearestEven (c * a) (Fp.mul (Fp.cvt raw.toNat) (Fp.ofBits scale)) ∧
        (|m + b| < overflowBound → ∃ v, f64ToRat (scaleReference raw scale offset) = some v ∧
          (scaleFp raw scale offset).toRat = some v ∧ NearestEven (m + b) (scaleFp raw scale offset)))

/-- Special values under the reference numerics (R102): a NaN operand gives some NaN; a product out of range gives an
infinity; zero times a negative scale is -0, kept by an offset of -0 and lost to an offset of +0; a subnormal result is
kept. All are delivered as present values. -/
def Obligations.ScalerSpecialValues : Prop :=
  (∀ (raw : U64) (scale offset : F64Bits), isNan scale = true ∨ isNan offset = true →
    isNan (scaleReference raw scale offset) = true) ∧
  (∀ (raw : U64) (scale offset : F64Bits) (c a b : ℚ), (Fp.cvt raw.toNat).toRat = some c →
    f64ToRat scale = some a → f64ToRat offset = some b → overflowBound ≤ |c * a| →
      scaleReference raw scale offset = if a < 0 then 0xFFF0000000000000 else 0x7FF0000000000000) ∧
  (∀ scale : F64Bits, isFinite scale = true → scale.getLsbD 63 = true →
    scaleReference 0 scale 0 = 0 ∧ scaleReference 0 scale 0x8000000000000000 = 0x8000000000000000) ∧
  (∀ scale : F64Bits, scale.extractLsb' 52 11 = 0 → scale.extractLsb' 0 52 ≠ 0 → scaleReference 1 scale 0 = scale) ∧
  (∀ (p : Payload) (f : Field) (sc off : F64Bits) (na raw : U64) (s : State), p.wf = true →
    Answers (.extract p f) s (.raw (some raw)) → raw ≠ na →
      ∃ v, Answers (.decodeSpn p f sc off na) s (.value (some v)))

/-! ### The frame decoder and the request-frame builder -/

/-- Code 0x7 is DECODE_FRAME. With a table built and a payload of at most 8 bytes it is PARSE_ID, a selection of the rows
of its PGN in registration order, and one DECODE_SPN per selected row; the rows without a value are left out (R130). -/
def Obligations.DecodeFrameComposesTheOtherOperations : Prop :=
  (∀ q : Req, q.op = 0x7 → q.dlen.toNat ≤ 8 → decode q = .ok (.decodeFrame q.id q.payload)) ∧
  ∀ (s : State) (t : SpnTable) (id : U32) (p : Payload), s.table = some t → p.wf = true →
    ∃ (c : CanIdentifier) (val : SpnDefinition → Option F64Bits),
      Answers (.parseId id) s (.canIdentifier c) ∧
      (∀ r ∈ t.rows, Answers (decodeWithRow p r) s (.value (val r))) ∧
      Answers (.decodeFrame id p) s (.decoded
        ((t.rows.filter (fun r => decide (r.pgn = c.pgn))).filterMap
          (fun r => (val r).map (fun x => ⟨r.spn, r.name, x, r.unit⟩))))

/-- Two identifiers with the same data page and PDU format, and the same PDU specific under PDU2, decode a payload
identically (R131). -/
def Obligations.DecodeFrameLooksAtThePgnOnly : Prop :=
  ∀ (id id' : U32) (p : Payload) (s : State),
    id.toNat / 2 ^ 16 % 2 ^ 9 = id'.toNat / 2 ^ 16 % 2 ^ 9 →
    (240 ≤ id.toNat / 2 ^ 16 % 2 ^ 8 → id.toNat / 2 ^ 8 % 2 ^ 8 = id'.toNat / 2 ^ 8 % 2 ^ 8) →
      exec (.decodeFrame id p) s = exec (.decodeFrame id' p) s

/-- A longer payload never loses elements a shorter prefix of it produced (R130, R92.4). -/
def Obligations.LongerPayloadKeepsDecodedElements : Prop :=
  ∀ (s : State) (id : U32) (p p' : Payload), s.table.isSome = true → p'.wf = true → Extends p p' →
    ∃ l l' : List DecodedSpn, Answers (.decodeFrame id p) s (.decoded l) ∧
      Answers (.decodeFrame id p') s (.decoded l') ∧ l.Sublist l'

/-- Code 0x8 is BUILD_REQ, answered in every state, table or not, with the identifier of R136 and the three payload bytes
of R137. The constant priority and the dropped bits 31:24 of the PGN are the spec's own D9, log 13. -/
def Obligations.BuildReqGivesTheRequestFrame : Prop :=
  (∀ q : Req, q.op = 0x8 → decode q = .ok (.buildReq q.requesterSa q.targetDa q.pgn)) ∧
  ∀ (sa da : Byte) (pgn : U32) (s : State), ∃ fr : RequestFrame, Answers (.buildReq sa da pgn) s (.request fr) ∧
    fr.canId.toNat = 0x18EA0000 + da.toNat * 2 ^ 8 + sa.toNat ∧
    fr.data.map BitVec.toNat = [pgn.toNat % 2 ^ 8, pgn.toNat / 2 ^ 8 % 2 ^ 8, pgn.toNat / 2 ^ 16 % 2 ^ 8]

/-- BUILD_REQ in terms of BUILD_ID, and what parsing its identifier gives (R138). The constant priority is the spec's own
D9 (log 13), the clear reserved bit its D7 (log 12). -/
def Obligations.BuildReqIsBuildIdOnFixedFields : Prop :=
  ∀ (sa da : Byte) (pgn : U32) (s : State), ∃ (fr : RequestFrame) (c : CanIdentifier),
    Answers (.buildReq sa da pgn) s (.request fr) ∧
    Answers (.buildId 6 0 0xEA da sa) s (.canId fr.canId) ∧
    Answers (.parseId fr.canId) s (.canIdentifier c) ∧
    c.priority = 6 ∧ c.reserved = 0 ∧ c.dataPage = 0 ∧ c.pduFormat = 234 ∧ c.pduSpecific = da ∧
    c.sourceAddress = sa ∧ c.pgn = 59904

/-! ### Absences -/

/-- The labels of an absent DECODE_SPN are tested in the order bad length, short, not available, and each maps to the
same absent response (R144). -/
def Obligations.AbsencesAreTestedInOrder : Prop :=
  ∀ (p : Payload) (f : Field) (sc off : F64Bits) (na : U64) (s : State), p.wf = true →
    let L := f.lengthBits.toNat
    let need := f.startByte.toNat + (f.startBit.toNat + L + 7) / 8
    ∃ label : Option Absence, decodeSpnAbsence s.numerics p f sc off na = label ∧
      (L = 0 ∨ 64 < L → label = some .badLength) ∧
      (1 ≤ L → L ≤ 64 → p.dlen.toNat < need → label = some .short) ∧
      (∀ raw, Answers (.extract p f) s (.raw (some raw)) →
        label = if raw = na then some .notAvailable else none) ∧
      (label ≠ none ↔ Answers (.decodeSpn p f sc off na) s (.value none))

/-- EXTRACT on the same field tells an unavailable signal from one that cannot be read, which DECODE_SPN does not (R143). -/
def Obligations.ExtractTellsUnavailableFromShort : Prop :=
  ∀ (p : Payload) (f : Field) (sc off : F64Bits) (na : U64) (s : State), p.wf = true →
    Answers (.decodeSpn p f sc off na) s (.value none) →
      (decodeSpnAbsence s.numerics p f sc off na = some .notAvailable ∧
        Answers (.extract p f) s (.raw (some na))) ∨
      ((decodeSpnAbsence s.numerics p f sc off na = some .short ∨
          decodeSpnAbsence s.numerics p f sc off na = some .badLength) ∧
        Answers (.extract p f) s (.raw none))

/-- An SPN no row has, and a PGN no row has, are absences with a label and an ordinary empty response (R141). -/
def Obligations.UnknownKeysAreAbsences : Prop :=
  ∀ (s : State) (t : SpnTable) (spn id : U32) (p : Payload), s.table = some t → p.wf = true →
    (spnDefAbsence t.rows spn = some .unknownSpn ↔ Answers (.getSpnDef spn) s (.spnDef none)) ∧
    (frameAbsence t.rows id = some .unknownPgn ↔ ∀ r ∈ t.rows, r.pgn ≠ (parseCanId id).pgn) ∧
    (frameAbsence t.rows id = some .unknownPgn → Answers (.decodeFrame id p) s (.decoded []))

/-! ### Formats -/

/-- A row is read back from its ROM layout, for strings of fewer than 256 bytes (R56; the numbering of the whole is the
model's, log 17). -/
def Obligations.RomRowReadsBack : Prop :=
  ∀ r : SpnDefinition, rowWf r = true → r.name.length < 256 → r.unit.length < 256 → rowOfRom (romOfRow r) = r

/-- On the ports an answer of DECODE_FRAME is its count and then, for each element, the SPN, the index of its row and the
value; the index is that of a row of the table, and the three denote the element (R14, R57, R18). The index is computed
from the SPN, which is the model's choice, log 23; carrying it in place of the strings is the spec's own D15. -/
def Obligations.PortElementDenotesItsRow : Prop :=
  ∀ (t : SpnTable) (num : Numerics) (id : U32) (p : Payload),
    let l := decodeFrame num t.rows id p
    (Response.decoded l).portFields t.rows =
      ⟨32, l.length⟩ :: l.flatMap
        (fun e => [⟨32, e.spn.toNat⟩, ⟨32, rowIndex t.rows e.spn⟩, ⟨64, e.value.toNat⟩]) ∧
    ∀ e ∈ l, rowIndex t.rows e.spn < t.rows.length ∧
      denoteElement t.rows (rowIndex t.rows e.spn) e.value = some e

/-- DECODE_SPN.T: the row GET_SPN_DEF returns, put on the operand ports, decodes as the row itself does in a frame
(R66). -/
def Obligations.PseudoOperationUsesTheReturnedRow : Prop :=
  ∀ (s : State) (t : SpnTable) (spn : U32) (p : Payload), s.table = some t → p.wf = true →
    (∀ r ∈ t.rows, r.spn = spn → ∃ i, decodeSpnT p (rowsBySpn t.rows spn) = some i ∧ i.wf = true ∧
      Answers i s (.value (toPort (decodeRow s.numerics p r)))) ∧
    ((∀ r ∈ t.rows, r.spn ≠ spn) → decodeSpnT p (rowsBySpn t.rows spn) = none)

/-- No port is too narrow for what it carries: every field of the port form of an answer is below 2 to its width, for a
table whose strings have fewer than 256 bytes (R14, R54, R56). The widths are the spec's own D3, D4 and D15; that the
strings of a row stand on the ports as in the ROM is the model's, log 17, and the row index of an element, log 23. -/
def Obligations.PortFieldsHoldTheirValues : Prop :=
  ∀ (i : Instr) (s : State) (t : SpnTable) (r : Response), s.table = some t →
    (∀ d ∈ t.rows, d.name.length < 256 ∧ d.unit.length < 256) → Answers i s r →
      ∀ f ∈ r.portFields t.rows, f.value < 2 ^ f.width

/-- A table-reading request issued before the table exists is never answered (R146, R166): no table is built while it
waits, and every step and host action that leads on, but for the reset input, leaves the block without a table and the
request waiting. That the refusal comes when the request is taken or the table is built, and not when the request is
presented, is the model's choice, log 26. -/
def Obligations.EarlyTableRequestsAreNeverAnswered : Prop :=
  ∀ (s : State) (q : Req) (i : Instr), s.table = none → q ∈ s.requests → decode q = .ok i → i.readsTable = true →
    (∀ rows, s.buildTable rows = .refused .noTable) ∧
    (∀ t, step s = .next t → t.table = none ∧ q ∈ t.requests) ∧
    (∀ q', (s.present q').table = none ∧ q ∈ (s.present q').requests) ∧
    (∀ r t, s.takeResponse = some (r, t) → t.table = none ∧ q ∈ t.requests) ∧
    (∀ rest, s.requests = q :: rest → step s = .refused .noTable)
end

