-- ==== Sys2Proof/Laws/State.lean ====
section
/-! SUPPORT. One lemma per field per update of the state, so that no proof unfolds a record update. -/

namespace Sys2Proof.Machine

section addResponse
variable (s : State) (r : Response)
@[simp] theorem State.addResponse_table : (s.addResponse r).table = s.table := rfl
@[simp] theorem State.addResponse_numerics : (s.addResponse r).numerics = s.numerics := rfl
@[simp] theorem State.addResponse_requests : (s.addResponse r).requests = s.requests := rfl
@[simp] theorem State.addResponse_responses : (s.addResponse r).responses = s.responses ++ [r] := rfl
end addResponse

section pushRequest
variable (q : Req) (s : State)
@[simp] theorem pushRequest_table : (pushRequest q s).table = s.table := rfl
@[simp] theorem pushRequest_numerics : (pushRequest q s).numerics = s.numerics := rfl
@[simp] theorem pushRequest_requests : (pushRequest q s).requests = q :: s.requests := rfl
@[simp] theorem pushRequest_responses : (pushRequest q s).responses = s.responses := rfl
end pushRequest

section present
variable (q : Req) (s : State)
@[simp] theorem State.present_table : (s.present q).table = s.table := rfl
@[simp] theorem State.present_numerics : (s.present q).numerics = s.numerics := rfl
@[simp] theorem State.present_requests : (s.present q).requests = s.requests ++ [q] := rfl
@[simp] theorem State.present_responses : (s.present q).responses = s.responses := rfl
end present

section resetInput
variable (s : State)
@[simp] theorem State.resetInput_table : s.resetInput.table = s.table := rfl
@[simp] theorem State.resetInput_numerics : s.resetInput.numerics = s.numerics := rfl
@[simp] theorem State.resetInput_requests : s.resetInput.requests = [] := rfl
@[simp] theorem State.resetInput_responses : s.resetInput.responses = [] := rfl
end resetInput

section withFetchWord
variable (s : State) (nbits w : Nat)
@[simp] theorem State.withFetchWord_table : (s.withFetchWord nbits w).table = s.table := rfl
@[simp] theorem State.withFetchWord_numerics : (s.withFetchWord nbits w).numerics = s.numerics := rfl
@[simp] theorem State.withFetchWord_requests :
    (s.withFetchWord nbits w).requests = Req.ofWord (tableWord nbits w) :: s.requests := rfl
@[simp] theorem State.withFetchWord_responses : (s.withFetchWord nbits w).responses = s.responses := rfl
end withFetchWord

end Sys2Proof.Machine
end

