-- ==== Sys2Proof/Laws/Ops.lean ====
section
/-! SUPPORT. What the shared operations of Machine/Ops.lean, Fetch.lean and Step.lean can do, said once. -/

namespace Sys2Proof.Machine

/-- Giving a response always succeeds. -/
theorem respond_next (s : State) (r : Response) : respond s r = .next (s.addResponse r) := rfl

/-- Two responses that leave the same state are the same response. -/
theorem State.addResponse_inj {s : State} {r r' : Response} : s.addResponse r = s.addResponse r' ↔ r = r' := by
  constructor
  · intro h
    have := congrArg State.responses h
    simpa using this
  · rintro rfl; rfl

/-- With a table, an answer from it is given. -/
theorem respondFromTable_some {s : State} {t : SpnTable} (h : s.table = some t) (f : List SpnDefinition → Response) :
    respondFromTable s f = .next (s.addResponse (f t.rows)) := by
  simp [respondFromTable, h, respond]

/-- Without a table, it is refused. -/
theorem respondFromTable_none {s : State} (h : s.table = none) (f : List SpnDefinition → Response) :
    respondFromTable s f = .refused .noTable := by
  simp [respondFromTable, h]

/-- A payload of at most 8 bytes is admitted. -/
theorem admitPayload_wf {p : Payload} (h : p.wf = true) (k : Host.Outcome State Fault Refusal) :
    admitPayload p k = k := by
  simp [admitPayload, h]

/-- A longer one is refused. -/
theorem admitPayload_not_wf {p : Payload} (h : p.wf = false) (k : Host.Outcome State Fault Refusal) :
    admitPayload p k = .refused (.badDlen p.dlen) := by
  simp [admitPayload, h]

/-- If an admitted payload leads to a next state, the payload was short enough and the rest led there. -/
theorem admitPayload_next {p : Payload} {k : Host.Outcome State Fault Refusal} {s : State}
    (h : admitPayload p k = .next s) : p.wf = true ∧ k = .next s := by
  unfold admitPayload at h
  split at h
  · exact ⟨‹_›, h⟩
  · cases h

/-- If an answer from the table leads to a next state, the table was built and one response was added. -/
theorem respondFromTable_next {s s' : State} {f : List SpnDefinition → Response}
    (h : respondFromTable s f = .next s') : ∃ t, s.table = some t ∧ s' = s.addResponse (f t.rows) := by
  unfold respondFromTable at h
  split at h
  · refine ⟨_, ‹_›, ?_⟩
    cases h; rfl
  · cases h

/-- Whatever leads to a next state added exactly one response. -/
theorem exec_next {i : Instr} {s s' : State} (h : exec i s = .next s') : ∃ r, s' = s.addResponse r := by
  cases i with
  | parseId id => exact ⟨_, (Host.Outcome.next.inj h).symm⟩
  | buildId p d f ps sa => exact ⟨_, (Host.Outcome.next.inj h).symm⟩
  | getSpnDef spn => obtain ⟨t, -, e⟩ := respondFromTable_next (f := fun rows => .spnDef (rowsBySpn rows spn)) h; exact ⟨_, e⟩
  | listPgns => obtain ⟨t, -, e⟩ := respondFromTable_next (f := fun rows => .pgns (distinctPgns rows)) h; exact ⟨_, e⟩
  | dbStats =>
    obtain ⟨t, -, e⟩ := respondFromTable_next (f := fun rows => .stats (spnCount rows) (pgnCount rows)) h
    exact ⟨_, e⟩
  | extract p f => exact ⟨_, (Host.Outcome.next.inj (admitPayload_next h).2).symm⟩
  | decodeSpn p f sc off na => exact ⟨_, (Host.Outcome.next.inj (admitPayload_next h).2).symm⟩
  | decodeFrame id p => obtain ⟨t, -, e⟩ := respondFromTable_next (admitPayload_next h).2; exact ⟨_, e⟩
  | buildReq sa da pgn => exact ⟨_, (Host.Outcome.next.inj h).symm⟩

/-- An idle block stays as it is. -/
theorem step_idle {s : State} (h : s.requests = []) : step s = .next s := by
  simp [step, takeRequest, h]

/-- A waiting request that decodes is executed on the state without it. -/
theorem step_ok {s : State} {q : Req} {rest : List Req} {i : Instr} (h : s.requests = q :: rest)
    (hd : decode q = .ok i) : step s = exec i { s with requests := rest } := by
  simp [step, takeRequest, h, hd]

/-- A waiting request that selects no operation is refused. -/
theorem step_error {s : State} {q : Req} {rest : List Req} {e : DecodeError} (h : s.requests = q :: rest)
    (hd : decode q = .error e) : step s = .refused (refusalOf e) := by
  simp [step, takeRequest, h, hd]

/-- Every way a step can lead to a next state. -/
theorem step_next {s s' : State} (h : step s = .next s') :
    (s.requests = [] ∧ s' = s) ∨
    ∃ q rest i r, s.requests = q :: rest ∧ decode q = .ok i ∧
      exec i { s with requests := rest } = .next s' ∧ s' = State.addResponse { s with requests := rest } r := by
  cases hq : s.requests with
  | nil => rw [step_idle hq] at h; exact .inl ⟨rfl, (Host.Outcome.next.inj h).symm⟩
  | cons q rest =>
    cases hd : decode q with
    | error e => rw [step_error hq hd] at h; cases h
    | ok i =>
      rw [step_ok hq hd] at h
      obtain ⟨r, hr⟩ := exec_next h
      exact .inr ⟨q, rest, i, r, rfl, hd, h, hr⟩

end Sys2Proof.Machine
end

