-- ==== Sys2Proof/Laws/Bits.lean ====
section
/-! SUPPORT. The identifier fields and the PGN as numbers. -/

namespace Sys2Proof.Machine

/-- A slice of a word as a number. -/
@[simp] theorem bits_toNat (v : BitVec w) (lo n : Nat) : (bits v lo n).toNat = v.toNat / 2 ^ lo % 2 ^ n := by
  simp [bits, BitVec.extractLsb'_toNat, Nat.shiftRight_eq_div_pow]

/-- One bit of a slice. -/
theorem bits_getLsbD (v : BitVec w) (lo n i : Nat) :
    (bits v lo n).getLsbD i = (decide (i < n) && v.getLsbD (lo + i)) := by
  simp [bits]

/-- `a * 2^k ||| b` is a sum when `b` is below `2^k`. -/
theorem shift_or_eq_add {a b k : Nat} (h : b < 2 ^ k) : a <<< k ||| b = a * 2 ^ k + b := by
  rw [Nat.shiftLeft_eq, Nat.mul_comm, ← Nat.two_pow_add_eq_or_of_lt h]

/-- Two joined words as a number. -/
theorem append_toNat {a b : Nat} (x : BitVec a) (y : BitVec b) : (x ++ y).toNat = x.toNat * 2 ^ b + y.toNat := by
  rw [BitVec.toNat_append, shift_or_eq_add y.isLt]

end Sys2Proof.Machine
end

