-- ==== Sys2Proof/Laws/CanId.lean ====
section
/-! SUPPORT. The PGN and the built identifier as numbers (spec/40_can_id.md R81, R84). -/

namespace Sys2Proof.Machine

/-- The PDU2 test in plain form. -/
theorem isPdu2_iff {pf : Byte} : isPdu2 pf = true ↔ 240 ≤ pf.toNat := by
  unfold isPdu2 Config.pdu2Threshold
  exact decide_eq_true_iff

/-- The PGN as a number, under PDU2 and under PDU1. -/
theorem pgnOf_toNat (dp : BitVec 1) (pf ps : Byte) :
    (pgnOf dp pf ps).toNat =
      dp.toNat * 2 ^ 16 + pf.toNat * 2 ^ 8 + (if 240 ≤ pf.toNat then ps.toNat else 0) := by
  have hd := dp.isLt
  have hf := pf.isLt
  have hs := ps.isLt
  have e1 : dp.toNat <<< 16 % 4294967296 = dp.toNat <<< 16 := by
    rw [Nat.shiftLeft_eq]; exact Nat.mod_eq_of_lt (by omega)
  have e2 : pf.toNat <<< 8 % 4294967296 = pf.toNat * 2 ^ 8 := by
    rw [Nat.shiftLeft_eq]; exact Nat.mod_eq_of_lt (by omega)
  have e3 : dp.toNat <<< 16 ||| pf.toNat * 256 = (dp.toNat * 2 ^ 8 + pf.toNat) <<< 8 := by
    rw [shift_or_eq_add (by omega), Nat.shiftLeft_eq]; ring_nf
  by_cases h : 240 ≤ pf.toNat
  · simp [pgnOf, isPdu2, Config.pdu2Threshold, h, BitVec.toNat_setWidth,
      Nat.mod_eq_of_lt (show dp.toNat < 4294967296 by omega), Nat.mod_eq_of_lt (show pf.toNat < 4294967296 by omega),
      Nat.mod_eq_of_lt (show ps.toNat < 4294967296 by omega), e1, e2]
    rw [e3, shift_or_eq_add (by omega)]; ring
  · simp [pgnOf, isPdu2, Config.pdu2Threshold, h, BitVec.toNat_setWidth,
      Nat.mod_eq_of_lt (show dp.toNat < 4294967296 by omega), Nat.mod_eq_of_lt (show pf.toNat < 4294967296 by omega),
      e1, e2]
    rw [e3, Nat.shiftLeft_eq]; ring

/-- The built identifier as a number: each operand cut to its field. -/
theorem buildCanId_toNat (p d f s a : Nat) :
    (buildCanId p d f s a).toNat =
      p % 2 ^ 3 * 2 ^ 26 + d % 2 * 2 ^ 24 + f % 2 ^ 8 * 2 ^ 16 + s % 2 ^ 8 * 2 ^ 8 + a % 2 ^ 8 := by
  have hp := Nat.mod_lt p (show 8 > 0 by omega)
  have hd := Nat.mod_lt d (show 2 > 0 by omega)
  have hf := Nat.mod_lt f (show 256 > 0 by omega)
  have hs := Nat.mod_lt s (show 256 > 0 by omega)
  have ha := Nat.mod_lt a (show 256 > 0 by omega)
  have e1 : (p % 8) <<< 26 ||| (d % 2) <<< 24 = ((p % 8) * 4 + d % 2) <<< 24 := by
    rw [shift_or_eq_add (by rw [Nat.shiftLeft_eq]; omega)]; simp only [Nat.shiftLeft_eq]; ring
  have e2 : ((p % 8) * 4 + d % 2) <<< 24 ||| (f % 256) <<< 16 = (((p % 8) * 4 + d % 2) * 256 + f % 256) <<< 16 := by
    rw [shift_or_eq_add (by rw [Nat.shiftLeft_eq]; omega)]; simp only [Nat.shiftLeft_eq]; ring
  have e3 : (((p % 8) * 4 + d % 2) * 256 + f % 256) <<< 16 ||| (s % 256) <<< 8
      = ((((p % 8) * 4 + d % 2) * 256 + f % 256) * 256 + s % 256) <<< 8 := by
    rw [shift_or_eq_add (by rw [Nat.shiftLeft_eq]; omega)]; simp only [Nat.shiftLeft_eq]; ring
  simp only [buildCanId, trunc, Nat.reducePow, BitVec.toNat_ofNat, pow_one]
  rw [e1, e2, e3, shift_or_eq_add (by omega), Nat.mod_eq_of_lt (by omega)]
  ring

end Sys2Proof.Machine
end

