-- ==== Sys2Proof/Laws/Decode.lean ====
section
/-! SUPPORT. The decoder, one operation code at a time (spec/30_encoding.md R60, R62, R63), and slices of joined words. -/

namespace Sys2Proof

/-- A payload is inside the contract when it has at most 8 bytes. -/
theorem Payload.wf_iff {p : Payload} : p.wf = true ↔ p.dlen.toNat ≤ 8 := by
  unfold Payload.wf Config.maxPayload
  exact decide_eq_true_iff

theorem withPayload_of_le {q : Req} (h : q.dlen.toNat ≤ 8) (i : Instr) : withPayload q i = .ok i :=
  if_pos (Payload.wf_iff.2 h)

theorem withPayload_of_gt {q : Req} (h : 9 ≤ q.dlen.toNat) (i : Instr) : withPayload q i = .error (.badDlen q.dlen) :=
  if_neg fun hw => absurd (Payload.wf_iff.1 hw) (show ¬ q.dlen.toNat ≤ 8 from Nat.not_le.2 h)

section
variable {q : Req}

theorem decode_parseId (h : q.op.toNat = 0) : decode q = .ok (.parseId q.id) := by simp [decode, h]

theorem decode_buildId (h : q.op.toNat = 1) :
    decode q = .ok (.buildId q.priority q.dataPage q.pduFormat q.pduSpecific q.sourceAddress) := by simp [decode, h]

theorem decode_getSpnDef (h : q.op.toNat = 2) : decode q = .ok (.getSpnDef q.spn) := by simp [decode, h]

theorem decode_listPgns (h : q.op.toNat = 3) : decode q = .ok .listPgns := by simp [decode, h]

theorem decode_dbStats (h : q.op.toNat = 4) : decode q = .ok .dbStats := by simp [decode, h]

theorem decode_extract (h : q.op.toNat = 5) : decode q = withPayload q (.extract q.payload q.field) := by
  simp [decode, h]

theorem decode_decodeSpn (h : q.op.toNat = 6) :
    decode q = withPayload q (.decodeSpn q.payload q.field q.scale q.offset q.naRaw) := by simp [decode, h]

theorem decode_decodeFrame (h : q.op.toNat = 7) : decode q = withPayload q (.decodeFrame q.id q.payload) := by
  simp [decode, h]

theorem decode_buildReq (h : q.op.toNat = 8) : decode q = .ok (.buildReq q.requesterSa q.targetDa q.pgn) := by
  simp [decode, h]

theorem decode_reserved (h : 9 ≤ q.op.toNat) : decode q = .error (.badOp q.op) := by
  unfold decode
  split <;> first | omega | rfl

/-- The ten cases of an operation code. -/
theorem op_cases (q : Req) :
    q.op.toNat = 0 ∨ q.op.toNat = 1 ∨ q.op.toNat = 2 ∨ q.op.toNat = 3 ∨ q.op.toNat = 4 ∨ q.op.toNat = 5 ∨
      q.op.toNat = 6 ∨ q.op.toNat = 7 ∨ q.op.toNat = 8 ∨ 9 ≤ q.op.toNat := by omega

end

/-- A slice above the lower of two joined words is a slice of the upper one. -/
theorem extract_append_high {a b : Nat} (x : BitVec a) (y : BitVec b) (lo n : Nat) (h : b ≤ lo) :
    (x ++ y).extractLsb' lo n = x.extractLsb' (lo - b) n := by
  apply BitVec.eq_of_getLsbD_eq
  intro i hi
  rw [BitVec.getLsbD_extractLsb', BitVec.getLsbD_extractLsb', BitVec.getLsbD_append,
    if_neg (by omega), show lo + i - b = lo - b + i by omega]

/-- The low slice of two joined words is the lower one. -/
theorem extract_append_low {a b : Nat} (x : BitVec a) (y : BitVec b) : (x ++ y).extractLsb' 0 b = y := by
  apply BitVec.eq_of_getLsbD_eq
  intro i hi
  rw [BitVec.getLsbD_extractLsb', BitVec.getLsbD_append, if_pos (by omega)]
  simp [hi]

end Sys2Proof
end

