-- ==== Sys2Proof/Laws/Exec.lean ====
section
/-! SUPPORT. One lemma per operation: the response its meaning gives, and when it refuses. -/

namespace Sys2Proof.Machine

variable {s : State} {t : SpnTable}

theorem exec_parseId (id : U32) (s : State) :
    exec (.parseId id) s = .next (s.addResponse (.canIdentifier (parseCanId id))) := rfl

theorem exec_buildId (p d f ps sa : Byte) (s : State) :
    exec (.buildId p d f ps sa) s =
      .next (s.addResponse (.canId (buildCanId p.toNat d.toNat f.toNat ps.toNat sa.toNat))) := rfl

theorem exec_getSpnDef (h : s.table = some t) (spn : U32) :
    exec (.getSpnDef spn) s = .next (s.addResponse (.spnDef (rowsBySpn t.rows spn))) :=
  respondFromTable_some h (fun rows => .spnDef (rowsBySpn rows spn))

theorem exec_getSpnDef_noTable (h : s.table = none) (spn : U32) : exec (.getSpnDef spn) s = .refused .noTable :=
  respondFromTable_none h (fun rows => .spnDef (rowsBySpn rows spn))

theorem exec_listPgns (h : s.table = some t) :
    exec .listPgns s = .next (s.addResponse (.pgns (distinctPgns t.rows))) :=
  respondFromTable_some h (fun rows => .pgns (distinctPgns rows))

theorem exec_listPgns_noTable (h : s.table = none) : exec .listPgns s = .refused .noTable :=
  respondFromTable_none h (fun rows => .pgns (distinctPgns rows))

theorem exec_dbStats (h : s.table = some t) :
    exec .dbStats s = .next (s.addResponse (.stats (spnCount t.rows) (pgnCount t.rows))) :=
  respondFromTable_some h (fun rows => .stats (spnCount rows) (pgnCount rows))

theorem exec_dbStats_noTable (h : s.table = none) : exec .dbStats s = .refused .noTable :=
  respondFromTable_none h (fun rows => .stats (spnCount rows) (pgnCount rows))

theorem exec_extract {p : Payload} (h : p.wf = true) (f : Field) (s : State) :
    exec (.extract p f) s = .next (s.addResponse (.raw (toPort (readField p f)))) :=
  admitPayload_wf h _

theorem exec_extract_long {p : Payload} (h : p.wf = false) (f : Field) (s : State) :
    exec (.extract p f) s = .refused (.badDlen p.dlen) :=
  admitPayload_not_wf h _

theorem exec_decodeSpn {p : Payload} (h : p.wf = true) (f : Field) (sc off : F64Bits) (na : U64) (s : State) :
    exec (.decodeSpn p f sc off na) s =
      .next (s.addResponse (.value (toPort (decodeSpn s.numerics p.data p.dlen.toNat f.startByte.toNat
        f.startBit.toNat f.lengthBits.toNat sc off na)))) :=
  admitPayload_wf h _

theorem exec_decodeSpn_long {p : Payload} (h : p.wf = false) (f : Field) (sc off : F64Bits) (na : U64) (s : State) :
    exec (.decodeSpn p f sc off na) s = .refused (.badDlen p.dlen) :=
  admitPayload_not_wf h _

theorem exec_decodeFrame {p : Payload} (hp : p.wf = true) (h : s.table = some t) (id : U32) :
    exec (.decodeFrame id p) s = .next (s.addResponse (.decoded (decodeFrame s.numerics t.rows id p))) :=
  (admitPayload_wf hp _).trans (respondFromTable_some h (fun rows => .decoded (decodeFrame s.numerics rows id p)))

theorem exec_decodeFrame_noTable {p : Payload} (hp : p.wf = true) (h : s.table = none) (id : U32) :
    exec (.decodeFrame id p) s = .refused .noTable :=
  (admitPayload_wf hp _).trans (respondFromTable_none h (fun rows => .decoded (decodeFrame s.numerics rows id p)))

theorem exec_decodeFrame_long {p : Payload} (h : p.wf = false) (id : U32) (s : State) :
    exec (.decodeFrame id p) s = .refused (.badDlen p.dlen) :=
  admitPayload_not_wf h _

theorem exec_buildReq (sa da : Byte) (pgn : U32) (s : State) :
    exec (.buildReq sa da pgn) s = .next (s.addResponse (.request (buildRequest sa da pgn))) := rfl

end Sys2Proof.Machine
end

