-- ==== Sys2Proof/Laws/HostActions.lean ====
section
/-! SUPPORT. What building the table can do (spec/70_reset_and_hazards.md R162, spec/60_exceptions.md R146). -/

namespace Sys2Proof.Machine

/-- A request that decodes reads the table when its operation does. -/
theorem readsTable_of_decode {q : Req} {i : Instr} (h : decode q = .ok i) : q.readsTable = i.readsTable := by
  simp [Req.readsTable, h]

/-- A request reads the table exactly when it decodes to an operation that does. -/
theorem readsTable_iff {q : Req} : q.readsTable = true ↔ ∃ i, decode q = .ok i ∧ i.readsTable = true := by
  unfold Req.readsTable
  cases decode q with
  | ok i => simp
  | error e => simp

/-- If the table is built, there was none, no waiting request reads it, the rows are well formed, and only the table
changed. -/
theorem buildTable_next {s s' : State} {rows : List SpnDefinition} (h : s.buildTable rows = .next s') :
    s.table = none ∧ s.requests.any Req.readsTable = false ∧
      ∃ hw : tableWf rows = true, s' = { s with table := some ⟨rows, hw⟩ } := by
  unfold State.buildTable at h
  split at h
  · cases h
  · split at h
    · cases h
    · rename_i hq
      split at h
      · cases h
        exact ⟨‹_›, Bool.eq_false_iff.2 hq, ‹_›, rfl⟩
      · cases h

/-- While a request that reads it waits, the table is not built. -/
theorem buildTable_early {s : State} {q : Req} (ht : s.table = none) (hq : q ∈ s.requests)
    (hr : q.readsTable = true) (rows : List SpnDefinition) : s.buildTable rows = .refused .noTable := by
  have : s.requests.any Req.readsTable = true := List.any_eq_true.2 ⟨q, hq, hr⟩
  simp [State.buildTable, ht, this]

end Sys2Proof.Machine
end

