-- ==== Sys2Proof/Laws/Numerics.lean ====
section
/-! SUPPORT. Bit lengths, the rounding of an integer, and what rounding and packing a number give (spec/42_extract_scale.md
R101, spec/30_encoding.md R58). -/

namespace Sys2Proof.Machine

/-- A nonzero natural lies between the powers of two its bit length names. -/
theorem bitLength_bounds {m : Nat} (h : m ≠ 0) : 1 ≤ bitLength m ∧ 2 ^ (bitLength m - 1) ≤ m ∧ m < 2 ^ bitLength m := by
  unfold bitLength
  rw [if_neg h]
  exact ⟨by omega, Nat.log2_self_le h, Nat.lt_log2_self⟩

/-- Rounding `m / 2^k` is off by at most half a unit, and by half a unit only when the result is even. -/
theorem roundShift_nearest (m k : Nat) :
    2 * (roundShift m k * 2 ^ k) ≤ 2 * m + 2 ^ k ∧ 2 * m ≤ 2 * (roundShift m k * 2 ^ k) + 2 ^ k ∧
      (2 * (roundShift m k * 2 ^ k) = 2 * m + 2 ^ k ∨ 2 * m = 2 * (roundShift m k * 2 ^ k) + 2 ^ k →
        roundShift m k % 2 = 0) := by
  have hd := Nat.div_add_mod m (2 ^ k)
  have hr := Nat.mod_lt m (show 0 < 2 ^ k by positivity)
  unfold roundShift
  simp only [Nat.shiftRight_eq_div_pow]
  generalize m / 2 ^ k = q at *
  generalize m % 2 ^ k = r at *
  have hq : 2 ^ k * q = q * 2 ^ k := Nat.mul_comm _ _
  generalize 2 ^ k = w at *
  generalize hx : q * w = x at *
  by_cases hc : w < 2 * r ∨ (2 * r = w ∧ q % 2 = 1)
  · rw [if_pos hc, Nat.add_mul, hx]; omega
  · rw [if_neg hc, hx]; omega

/-- Rounding keeps a value between two powers of two between them. -/
theorem roundShift_bounds {m k b : Nat} (h1 : 2 ^ (b + k) ≤ m) (h2 : m < 2 ^ (b + 1 + k)) :
    2 ^ b ≤ roundShift m k ∧ roundShift m k ≤ 2 ^ (b + 1) := by
  have h3 : 2 ^ b ≤ m / 2 ^ k := by rw [Nat.le_div_iff_mul_le (by positivity), ← pow_add]; exact h1
  have h4 : m / 2 ^ k < 2 ^ (b + 1) := by rw [Nat.div_lt_iff_lt_mul (by positivity), ← pow_add]; exact h2
  unfold roundShift
  simp only [Nat.shiftRight_eq_div_pow]
  split <;> omega

/-- The rounded value never exceeds the power of two above the number. -/
theorem roundShift_le {m k b : Nat} (h : m < 2 ^ (b + k)) : roundShift m k ≤ 2 ^ b := by
  have h4 : m / 2 ^ k < 2 ^ b := by rw [Nat.div_lt_iff_lt_mul (by positivity), ← pow_add]; exact h
  unfold roundShift
  simp only [Nat.shiftRight_eq_div_pow]
  split <;> omega

/-- A finite result of rounding keeps the sign, has at most 53 significant bits (or is the power of two above), and is
subnormal only at the least exponent. -/
theorem roundFp_fin {neg neg' : Bool} {m n : Nat} {e q : Int} (h : roundFp neg m e = .fin neg' n q) :
    neg' = neg ∧ Fp.minExp ≤ q ∧ q ≤ Fp.maxExp ∧ n ≤ 2 ^ 53 ∧ (q = Fp.minExp ∨ 2 ^ 52 ≤ n) ∧
      ¬ (q = Fp.maxExp ∧ n = 2 ^ 53) := by
  unfold roundFp at h
  by_cases hm : m = 0
  · rw [if_pos hm] at h
    cases h
    simp [Fp.minExp, Fp.maxExp]
  · rw [if_neg hm] at h
    obtain ⟨hb1, hb2, hb3⟩ := bitLength_bounds hm
    simp only at h
    generalize hN : (if quantum m e ≤ e then m <<< (e - quantum m e).toNat
      else roundShift m (quantum m e - e).toNat) = N at h
    split at h
    · cases h
    · rename_i hov
      cases h
      rw [← hN] at hov ⊢
      clear hN
      have hq : quantum m e = if e + bitLength m - 53 < Fp.minExp then Fp.minExp else e + bitLength m - 53 := rfl
      generalize hQ : quantum m e = Q at *
      have hQmin : Fp.minExp ≤ Q := by split at hq <;> omega
      refine ⟨rfl, hQmin, by omega, ?_, ?_, fun hh => hov (Or.inr hh)⟩
      · split
        · rename_i hle
          rw [Nat.shiftLeft_eq]
          have : m * 2 ^ (e - Q).toNat < 2 ^ (bitLength m) * 2 ^ (e - Q).toNat :=
            Nat.mul_lt_mul_of_pos_right hb3 (by positivity)
          rw [← pow_add] at this
          refine (this.le).trans (Nat.pow_le_pow_right (by omega) ?_)
          split at hq <;> omega
        · rename_i hle
          apply roundShift_le
          refine lt_of_lt_of_le hb3 (Nat.pow_le_pow_right (by omega) ?_)
          split at hq <;> omega
      · by_cases hs : e + bitLength m - 53 < Fp.minExp
        · left; rw [if_pos hs] at hq; exact hq
        · right
          rw [if_neg hs] at hq
          split
          · rename_i hle
            rw [Nat.shiftLeft_eq]
            have : 2 ^ (bitLength m - 1) * 2 ^ (e - Q).toNat ≤ m * 2 ^ (e - Q).toNat := Nat.mul_le_mul_right _ hb2
            rw [← pow_add] at this
            refine le_trans (Nat.pow_le_pow_right (by omega) ?_) this
            omega
          · rename_i hle
            refine (roundShift_bounds (b := 52) ?_ ?_).1
            · refine le_trans (Nat.pow_le_pow_right (by omega) ?_) hb2
              omega
            · refine lt_of_lt_of_le hb3 (Nat.pow_le_pow_right (by omega) ?_)
              omega

/-- The sign and the magnitude fields of packed bits. -/
theorem signed_fields (neg : Bool) {x f : Nat} (hx : x < 2048) (hf : f < 2 ^ 52) :
    (Fp.signed neg (x * 2 ^ 52 + f)).getLsbD 63 = neg ∧
      ((Fp.signed neg (x * 2 ^ 52 + f)).extractLsb' 52 11).toNat = x ∧
      ((Fp.signed neg (x * 2 ^ 52 + f)).extractLsb' 0 52).toNat = f := by
  have hval : (Fp.signed neg (x * 2 ^ 52 + f)).toNat = (if neg then 2 ^ 63 else 0) + (x * 2 ^ 52 + f) := by
    unfold Fp.signed
    rw [BitVec.toNat_ofNat]
    apply Nat.mod_eq_of_lt
    split <;> omega
  refine ⟨?_, ?_, ?_⟩
  · rw [← BitVec.testBit_toNat, hval, Nat.testBit_eq_decide_div_mod_eq]
    cases neg <;> simp <;> omega
  · rw [BitVec.extractLsb'_toNat, hval, Nat.shiftRight_eq_div_pow]
    cases neg <;> simp <;> omega
  · rw [BitVec.extractLsb'_toNat, hval]
    cases neg <;> simp <;> omega

/-- Packing a finite result of rounding and unpacking it again denotes the same number. -/
theorem f64ToRat_toBits_fin {nan : F64Bits} {neg : Bool} {n : Nat} {q : Int} (h1 : Fp.minExp ≤ q) (h2 : q ≤ Fp.maxExp)
    (h3 : n ≤ 2 ^ 53) (h4 : q = Fp.minExp ∨ 2 ^ 52 ≤ n) (h5 : ¬ (q = Fp.maxExp ∧ n = 2 ^ 53)) :
    f64ToRat (Fp.toBits nan (.fin neg n q)) = some (dyadic neg n q) := by
  obtain ⟨k, rfl⟩ : ∃ k : Nat, q = Fp.minExp + k := ⟨(q - Fp.minExp).toNat, by omega⟩
  have hk : (Fp.minExp + (k : Int) - Fp.minExp).toNat = k := by omega
  have hk2 : k ≤ 2045 := by simp only [Fp.minExp, Fp.maxExp] at h2; omega
  have h5' : ¬ (k = 2045 ∧ n = 2 ^ 53) := by
    intro hh; apply h5; simp only [Fp.minExp, Fp.maxExp]; omega
  have h4' : k = 0 ∨ 2 ^ 52 ≤ n := by rcases h4 with h | h <;> [left; right] <;> omega
  simp only [Fp.toBits, hk]
  by_cases hn : n < 2 ^ 52
  · have hk0 : k = 0 := by omega
    subst hk0
    obtain ⟨a, b, c⟩ := signed_fields neg (x := 0) (f := n) (by omega) hn
    unfold f64ToRat Fp.ofBits
    simp only [a, b, c]
    simp [Fp.toRat]
  · by_cases hn2 : n = 2 ^ 53
    · subst hn2
      have e : k * 2 ^ 52 + 2 ^ 53 = (k + 2) * 2 ^ 52 + 0 := by ring
      rw [e]
      obtain ⟨a, b, c⟩ := signed_fields neg (x := k + 2) (f := 0) (by omega) (by positivity)
      unfold f64ToRat Fp.ofBits
      simp only [a, b, c]
      rw [if_neg (by omega), if_neg (by omega)]
      simp only [Fp.toRat, dyadic, Option.some.injEq]
      have : (((k + 2 : Nat) : Int) - 1075) = (Fp.minExp + (k : Int)) + 1 := by simp only [Fp.minExp]; push_cast; ring
      rw [this, zpow_add₀ (by norm_num)]
      push_cast
      ring
    · obtain ⟨f, rfl⟩ : ∃ f, n = 2 ^ 52 + f := ⟨n - 2 ^ 52, by omega⟩
      have e : k * 2 ^ 52 + (2 ^ 52 + f) = (k + 1) * 2 ^ 52 + f := by ring
      rw [e]
      obtain ⟨a, b, c⟩ := signed_fields neg (x := k + 1) (f := f) (by omega) (by omega)
      unfold f64ToRat Fp.ofBits
      simp only [a, b, c]
      rw [if_neg (by omega), if_neg (by omega)]
      simp only [Fp.toRat, dyadic, Option.some.injEq]
      have : (((k + 1 : Nat) : Int) - 1075) = Fp.minExp + (k : Int) := by simp only [Fp.minExp]; push_cast; ring
      rw [this]

/-- Packing a finite result of rounding keeps the number. -/
theorem f64ToRat_toBits_roundFp {nan : F64Bits} {neg neg' : Bool} {m n : Nat} {e q : Int}
    (h : roundFp neg m e = .fin neg' n q) : f64ToRat (Fp.toBits nan (.fin neg' n q)) = some (dyadic neg' n q) := by
  obtain ⟨-, h1, h2, h3, h4, h5⟩ := roundFp_fin h
  exact f64ToRat_toBits_fin h1 h2 h3 h4 h5

/-- What the model names as a NaN is one. -/
theorem isNan_nanOf (x : BitVec 53) : isNan (nanOf x) = true := by
  have hf := (x.extractLsb' 0 52).isLt
  unfold nanOf
  obtain ⟨-, b, c⟩ := signed_fields (x.getLsbD 52) (x := 2047)
    (f := if (x.extractLsb' 0 52).toNat = 0 then 1 else (x.extractLsb' 0 52).toNat) (by omega) (by split <;> omega)
  simp only
  unfold isNan
  rw [b, c]
  simp only [decide_true, Bool.true_and, decide_eq_true_eq]
  split <;> omega

/-- A NaN unpacks to a NaN. -/
theorem ofBits_of_isNan {b : F64Bits} (h : isNan b = true) : Fp.ofBits b = .nan := by
  unfold isNan at h
  simp only [Bool.and_eq_true, decide_eq_true_eq] at h
  unfold Fp.ofBits
  simp only [h.1, if_true]
  exact if_neg h.2

/-- A finite number denotes a rational, and only a finite number does. -/
theorem f64ToRat_isSome_iff (b : F64Bits) : (f64ToRat b).isSome = true ↔ isFinite b = true := by
  unfold f64ToRat Fp.ofBits isFinite
  rw [decide_eq_true_eq]
  by_cases h : (b.extractLsb' 52 11).toNat = 2047
  · simp only [h, if_true]
    split <;> simp [Fp.toRat]
  · simp only [h, if_false, ne_eq, not_false_eq_true, iff_true]
    split <;> rfl

end Sys2Proof.Machine
end

