-- ==== Sys2Proof/Laws/Operands.lean ====
section
/-! SUPPORT. The payload as a number and the field read from it (spec/20_memory.md R31, R33; spec/42_extract_scale.md
R90 to R92). -/

namespace Sys2Proof.Machine

/-- Closed form of the stream: the low `8 * n` bits of the `data` port. -/
theorem stream_eq_mod (data : BitVec 64) (n : Nat) : stream data n = data.toNat % 2 ^ (8 * n) := by
  induction n with
  | zero => simp [stream, Nat.mod_one]
  | succ n ih =>
    rw [stream, ih, byteLane, bits_toNat, show 8 * (n + 1) = 8 * n + 8 by ring, pow_add, Nat.mod_mul]
    ring

/-- The stream of `n` bytes is below `2^(8*n)`. -/
theorem stream_lt (data : BitVec 64) (n : Nat) : stream data n < 2 ^ (8 * n) := by
  rw [stream_eq_mod]; exact Nat.mod_lt _ (by positivity)

/-- The stream depends on the bytes it is made of only. -/
theorem stream_congr {d d' : BitVec 64} {n : Nat} (h : ∀ i, i < n → byteLane d i = byteLane d' i) :
    stream d n = stream d' n := by
  induction n with
  | zero => rfl
  | succ n ih => rw [stream, stream, ih (fun i hi => h i (by omega)), h n (by omega)]

/-- A longer stream begins with the shorter one. -/
theorem stream_mod_of_le (data : BitVec 64) {m n : Nat} (h : m ≤ n) : stream data n % 2 ^ (8 * m) = stream data m := by
  rw [stream_eq_mod, stream_eq_mod, Nat.mod_mod_of_dvd _ (pow_dvd_pow 2 (by omega))]

/-- A read of `n` bits is below `2^n`. -/
theorem memRead_lt (data : BitVec 64) (dlen pos n : Nat) : memRead data dlen pos n < 2 ^ n :=
  Nat.mod_lt _ (by positivity)

/-- A read in division form. -/
theorem memRead_eq (data : BitVec 64) (dlen pos n : Nat) :
    memRead data dlen pos n = stream data dlen / 2 ^ pos % 2 ^ n := by
  rw [memRead, Nat.shiftRight_eq_div_pow]

/-- The bits of a read are bits of the `data` port. -/
theorem memRead_testBit (data : BitVec 64) (dlen pos n i : Nat) :
    (memRead data dlen pos n).testBit i = (decide (i < n ∧ pos + i < 8 * dlen) && data.getLsbD (pos + i)) := by
  rw [memRead, stream_eq_mod, Nat.testBit_mod_two_pow, Nat.testBit_shiftRight, Nat.testBit_mod_two_pow,
    BitVec.testBit_toNat]
  by_cases h1 : i < n <;> by_cases h2 : pos + i < 8 * dlen <;> simp [h1, h2]

/-- The length test in plain form. -/
theorem lengthOk_iff {l : Nat} : lengthOk l = true ↔ 1 ≤ l ∧ l ≤ 64 := by
  rw [lengthOk, Bool.and_eq_true, decide_eq_true_eq, decide_eq_true_eq]
  rfl

/-- The bounds test in plain form: the field ends inside the payload (R92.1). -/
theorem fits_iff {dlen b t l : Nat} : fits dlen b t l = true ↔ fieldPos b t + l ≤ 8 * dlen := by
  unfold fits bytesNeeded ceilDiv fieldPos
  rw [decide_eq_true_eq]
  omega

/-- When a field is read, and what is read. -/
theorem extractBits_eq_ok {data : BitVec 64} {dlen b t l : Nat} {raw : U64} :
    extractBits data dlen b t l = .ok raw ↔
      1 ≤ l ∧ l ≤ 64 ∧ fieldPos b t + l ≤ 8 * dlen ∧
        raw = BitVec.ofNat 64 (memRead data dlen (fieldPos b t) l) := by
  unfold extractBits
  by_cases h1 : lengthOk l = true
  · have h1' := lengthOk_iff.1 h1
    by_cases h2 : fits dlen b t l = true
    · have h3 := fits_iff.1 h2
      simp only [h1, h2, if_true, Except.ok.injEq]
      constructor
      · intro h; exact ⟨h1'.1, h1'.2, h3, h.symm⟩
      · intro h; exact h.2.2.2.symm
    · have : ¬ (fieldPos b t + l ≤ 8 * dlen) := fun h => h2 (fits_iff.2 h)
      simp [h1, h2, this]
  · have : ¬ (1 ≤ l ∧ l ≤ 64) := fun h => h1 (lengthOk_iff.2 h)
    simp only [h1]
    constructor
    · intro h; cases h
    · intro h; exact absurd ⟨h.1, h.2.1⟩ this

/-- The raw value as a number, for a field of at most 64 bits. -/
theorem raw_toNat {data : BitVec 64} {dlen pos l : Nat} (h : l ≤ 64) :
    (BitVec.ofNat 64 (memRead data dlen pos l)).toNat = memRead data dlen pos l := by
  rw [BitVec.toNat_ofNat]
  exact Nat.mod_eq_of_lt (lt_of_lt_of_le (memRead_lt _ _ _ _) (pow_le_pow_right₀ (by norm_num) h))

/-- A field that is read depends on the bytes of the payload only. -/
theorem extractBits_congr {d d' : BitVec 64} {n b t l : Nat} (h : ∀ i, i < n → byteLane d i = byteLane d' i) :
    extractBits d n b t l = extractBits d' n b t l := by
  simp only [extractBits, memRead, stream_congr h]

/-- A field read from a payload is read from a longer one that begins with it (R92.4). -/
theorem extractBits_mono {d d' : BitVec 64} {n n' b t l : Nat} {raw : U64} (hn : n ≤ n')
    (h : ∀ i, i < n → byteLane d i = byteLane d' i) (he : extractBits d n b t l = .ok raw) :
    extractBits d' n' b t l = .ok raw := by
  rw [extractBits_eq_ok] at he ⊢
  obtain ⟨h1, h2, h3, rfl⟩ := he
  refine ⟨h1, h2, by omega, ?_⟩
  congr 1
  apply Nat.eq_of_testBit_eq
  intro i
  rw [memRead_testBit, memRead_testBit]
  by_cases hi : i < l
  · have hb : fieldPos b t + i < 8 * n := by omega
    have hb' : fieldPos b t + i < 8 * n' := by omega
    have := congrArg (fun x => x.getLsbD ((fieldPos b t + i) % 8)) (h ((fieldPos b t + i) / 8) (by omega))
    simp only [byteLane, bits_getLsbD] at this
    rw [show 8 * ((fieldPos b t + i) / 8) + (fieldPos b t + i) % 8 = fieldPos b t + i by omega,
      show decide ((fieldPos b t + i) % 8 < 8) = true by simp; omega] at this
    simp only [Bool.true_and] at this
    simp [hi, hb, hb', this]
  · simp [hi]

end Sys2Proof.Machine
end

