-- ==== Sys2Proof/Laws/PerInstr.lean ====
section
/-! SUPPORT. Statements made of every operation, one lemma per constructor. -/

namespace Sys2Proof.Laws.RecordRoundTrip

/-- The request of a well-formed operation carries its operation code (spec/30_encoding.md R60) and decodes back to it,
every operand included. -/
def Statement (i : Instr) : Prop := i.wf = true → (encode i).op = i.opcode ∧ decode (encode i) = .ok i

theorem parseId (id : U32) : Statement (.parseId id) := fun _ => ⟨rfl, rfl⟩

theorem buildId (priority dataPage pduFormat pduSpecific sourceAddress : Byte) :
    Statement (.buildId priority dataPage pduFormat pduSpecific sourceAddress) := fun _ => ⟨rfl, rfl⟩

theorem getSpnDef (spn : U32) : Statement (.getSpnDef spn) := fun _ => ⟨rfl, rfl⟩

theorem listPgns : Statement .listPgns := fun _ => ⟨rfl, rfl⟩

theorem dbStats : Statement .dbStats := fun _ => ⟨rfl, rfl⟩

/-- Admitting a short payload gives the operation itself. -/
theorem withPayload_ok {q : Req} {p : Payload} {i : Instr} (hq : q.payload = p) (hp : p.wf = true) :
    withPayload q i = .ok i := by
  simp [withPayload, hq, hp]

theorem extract (payload : Payload) (field : Field) : Statement (.extract payload field) :=
  fun h => ⟨rfl, withPayload_ok rfl h⟩

theorem decodeSpn (payload : Payload) (field : Field) (scale offset : F64Bits) (naRaw : U64) :
    Statement (.decodeSpn payload field scale offset naRaw) := fun h => ⟨rfl, withPayload_ok rfl h⟩

theorem decodeFrame (id : U32) (payload : Payload) : Statement (.decodeFrame id payload) :=
  fun h => ⟨rfl, withPayload_ok rfl h⟩

theorem buildReq (requesterSa targetDa : Byte) (pgn : U32) : Statement (.buildReq requesterSa targetDa pgn) :=
  fun _ => ⟨rfl, rfl⟩

end Sys2Proof.Laws.RecordRoundTrip
end

