-- ==== Sys2Proof/Laws/Table.lean ====
section
/-! SUPPORT. The table's conditions and its two indices (spec/41_database.md R110 to R116). -/

namespace Sys2Proof.Machine

/-- W1 as a statement about pairs of rows. -/
theorem spnsDistinct_iff {rows : List SpnDefinition} :
    spnsDistinct rows = true ↔ rows.Pairwise (fun r q => q.spn ≠ r.spn) := by
  induction rows with
  | nil => simp [spnsDistinct]
  | cons r rest ih => simp [spnsDistinct, ih, List.pairwise_cons]

/-- The SPNs of a table are pairwise different. -/
theorem SpnTable.spns_nodup (t : SpnTable) : (t.rows.map SpnDefinition.spn).Nodup := by
  have h := t.wf
  simp only [tableWf, Bool.and_eq_true] at h
  rw [List.Nodup, List.pairwise_map]
  exact (spnsDistinct_iff.1 h.1.1).imp (fun h => h.symm)

/-- W2 to W6 in plain form. -/
theorem rowWf_iff {r : SpnDefinition} :
    rowWf r = true ↔
      r.startByte ≤ 7 ∧ r.startBit ≤ 7 ∧ 1 ≤ r.lengthBits ∧ r.lengthBits ≤ 64 ∧
        r.startByte * 8 + r.startBit + r.lengthBits ≤ 64 ∧ r.notAvailableRaw.toNat = ones r.lengthBits ∧
        isFinite r.scale = true ∧ isFinite r.offset = true := by
  unfold rowWf
  simp only [Bool.and_eq_true, decide_eq_true_eq, and_assoc]

/-- Every row of a table is well formed. -/
theorem SpnTable.row_wf (t : SpnTable) {r : SpnDefinition} (hr : r ∈ t.rows) : rowWf r = true := by
  have h := t.wf
  simp only [tableWf, Bool.and_eq_true, List.all_eq_true] at h
  exact h.1.2 r hr

/-- A table has fewer than 2^32 rows. -/
theorem SpnTable.length_lt (t : SpnTable) : t.rows.length < 2 ^ 32 := by
  have h := t.wf
  simp only [tableWf, Bool.and_eq_true, decide_eq_true_eq] at h
  exact h.2

/-- A row found by SPN is a row with that SPN. -/
theorem rowsBySpn_some {rows : List SpnDefinition} {s : U32} {r : SpnDefinition} (h : rowsBySpn rows s = some r) :
    r ∈ rows ∧ r.spn = s := by
  refine ⟨List.mem_of_find?_eq_some h, ?_⟩
  simpa using List.find?_some h

/-- No row is found exactly when no row has the SPN. -/
theorem rowsBySpn_none {rows : List SpnDefinition} {s : U32} : rowsBySpn rows s = none ↔ ∀ r ∈ rows, r.spn ≠ s := by
  simp [rowsBySpn]

/-- The rows listed under a PGN. -/
theorem mem_rowsByPgn {rows : List SpnDefinition} {p : U32} {r : SpnDefinition} :
    r ∈ rowsByPgn rows p ↔ r ∈ rows ∧ r.pgn = p := by
  simp [rowsByPgn]

/-- The new PGNs are those of the rows that were not there before. -/
theorem mem_newPgns {before : List U32} {rows : List SpnDefinition} {p : U32} :
    p ∈ newPgns before rows ↔ p ∉ before ∧ ∃ r ∈ rows, r.pgn = p := by
  induction rows generalizing before with
  | nil => simp [newPgns]
  | cons r rest ih =>
    by_cases h : r.pgn ∈ before
    · simp only [newPgns, h, if_true, ih, List.mem_cons, exists_eq_or_imp]
      constructor
      · rintro ⟨h1, h2⟩; exact ⟨h1, .inr h2⟩
      · rintro ⟨h1, h2 | h2⟩
        · exact absurd (h2 ▸ h) h1
        · exact ⟨h1, h2⟩
    · simp only [newPgns, h, if_false, List.mem_cons, ih, exists_eq_or_imp, not_or]
      constructor
      · rintro (rfl | ⟨⟨-, h1⟩, h2⟩)
        · exact ⟨h, .inl rfl⟩
        · exact ⟨h1, .inr h2⟩
      · rintro ⟨h1, h2 | h2⟩
        · exact .inl h2.symm
        · by_cases e : p = r.pgn
          · exact .inl e
          · exact .inr ⟨⟨e, h1⟩, h2⟩

/-- No PGN is new twice. -/
theorem newPgns_nodup {before : List U32} {rows : List SpnDefinition} : (newPgns before rows).Nodup := by
  induction rows generalizing before with
  | nil => simp [newPgns]
  | cons r rest ih =>
    by_cases h : r.pgn ∈ before
    · simpa [newPgns, h] using ih
    · simp only [newPgns, h, if_false, List.nodup_cons]
      exact ⟨fun hm => (mem_newPgns.1 hm).1 (by simp), ih⟩

/-- There are no more new PGNs than rows. -/
theorem newPgns_length_le {before : List U32} {rows : List SpnDefinition} :
    (newPgns before rows).length ≤ rows.length := by
  induction rows generalizing before with
  | nil => simp [newPgns]
  | cons r rest ih =>
    by_cases h : r.pgn ∈ before
    · simp only [newPgns, h, if_true, List.length_cons]; exact Nat.le_succ_of_le ih
    · simp only [newPgns, h, if_false, List.length_cons]; exact Nat.succ_le_succ ih

/-- The distinct PGNs are those of the rows. -/
theorem mem_distinctPgns {rows : List SpnDefinition} {p : U32} : p ∈ distinctPgns rows ↔ ∃ r ∈ rows, r.pgn = p := by
  simp [distinctPgns, mem_newPgns]

/-- The count of rows fits its port (W7). -/
theorem spnCount_toNat (t : SpnTable) : (spnCount t.rows).toNat = t.rows.length := by
  rw [spnCount, BitVec.toNat_ofNat]; exact Nat.mod_eq_of_lt t.length_lt

/-- The count of PGNs fits its port. -/
theorem pgnCount_toNat (t : SpnTable) : (pgnCount t.rows).toNat = (distinctPgns t.rows).length := by
  rw [pgnCount, BitVec.toNat_ofNat]
  exact Nat.mod_eq_of_lt (lt_of_le_of_lt newPgns_length_le t.length_lt)

end Sys2Proof.Machine
end

