-- ==== Sys2Proof/Laws/Ports.lean ====
section
/-! SUPPORT. The row index a decoded element carries on the ports (spec/30_encoding.md R57), and where decoded elements
come from (spec/43_frame.md R130). -/

namespace Sys2Proof.Machine

/-- The row index of a row's own SPN is the place of that row. -/
theorem getElem?_rowIndex (t : SpnTable) {r : SpnDefinition} (hr : r ∈ t.rows) :
    rowIndex t.rows r.spn < t.rows.length ∧ t.rows[rowIndex t.rows r.spn]? = some r := by
  have h : rowIndex t.rows r.spn < t.rows.length := by
    unfold rowIndex
    rw [List.findIdx_lt_length]
    exact ⟨r, hr, by simp⟩
  have hs : (t.rows[rowIndex t.rows r.spn]'h).spn = r.spn :=
    of_decide_eq_true (List.findIdx_getElem (p := fun x : SpnDefinition => decide (x.spn = r.spn)) (w := h))
  exact ⟨h, (List.getElem?_eq_getElem h).trans
    (congrArg some (List.inj_on_of_nodup_map t.spns_nodup (List.getElem_mem h) hr hs))⟩

/-- Every decoded element carries the SPN, the name and the unit of a row of the table. -/
theorem mem_decodeFrame {num : Numerics} {rows : List SpnDefinition} {id : U32} {p : Payload} {e : DecodedSpn}
    (he : e ∈ decodeFrame num rows id p) : ∃ r ∈ rows, e.spn = r.spn ∧ e.name = r.name ∧ e.unit = r.unit := by
  unfold decodeFrame at he
  rw [List.mem_filterMap] at he
  obtain ⟨r, hr, h⟩ := he
  unfold rowElement at h
  cases hv : toPort (decodeRow num p r) with
  | none => rw [hv] at h; cases h
  | some x => rw [hv] at h; cases h; exact ⟨r, (mem_rowsByPgn.1 hr).1, rfl, rfl, rfl⟩

end Sys2Proof.Machine
end

