-- ==== Sys2Proof/Laws/Run.lean ====
section
/-! SUPPORT. Runs of several steps, one step at a time. -/

namespace Sys2Proof.Machine

/-- A run that begins with a step to `s'` goes on from `s'`. -/
theorem run_succ (M : Host.Core) (k : Nat) (s s' : M.State) (h : M.step s = .next s') :
    M.run (k + 1) s = M.run k s' := by
  simp [Host.Core.run, h]

/-- The same for this machine, in its own names. -/
theorem core_run_succ {k : Nat} {s s' : State} (h : step s = .next s') :
    Host.Core.run core (k + 1) s = Host.Core.run core k s' :=
  run_succ core k s s' h

end Sys2Proof.Machine
end

