-- ==== Sys2Proof/Tests/Slice0.lean ====
section
/-! SUPPORT. Smoke tests, decoded words, one-step tests from spec/95_test_vectors.md ("V…", "E…", "P…" name its
vectors), and for every statement with hypotheses a witness that meets them. -/

namespace Sys2Proof.Tests

open Sys2Proof Sys2Proof.Machine

/-! ### WellFormed: each check refuses an ill-formed term -/

theorem test_extract_dlen9_ill_formed : (Instr.extract ⟨0, 9⟩ ⟨0, 0, 8⟩).wf = false := by decide
theorem test_decodeSpn_dlen9_ill_formed : (Instr.decodeSpn ⟨0, 9⟩ ⟨0, 0, 8⟩ 0 0 0).wf = false := by decide
theorem test_decodeFrame_dlen15_ill_formed : (Instr.decodeFrame 0 ⟨0, 15⟩).wf = false := by decide

/-- V8.6, W1: two rows with SPN 190. -/
theorem test_table_spn_twice : tableWf [refEngineSpeed, { refTorqueMode with spn := 190 }] = false := by decide
/-- W2: start byte 8, start bit 8. -/
theorem test_table_start_out_of_range :
    tableWf [{ refTorqueMode with startByte := 8 }] = false ∧ tableWf [{ refTorqueMode with startBit := 8 }] = false := by
  decide
/-- V8.6, W3: a length of 0; a length of 65. -/
theorem test_table_length_out_of_range :
    tableWf [{ refTorqueMode with lengthBits := 0, notAvailableRaw := 0 }] = false ∧
      tableWf [{ refTorqueMode with lengthBits := 65 }] = false := by decide
/-- V8.6, W4: a field that ends at bit 65. -/
theorem test_table_field_past_the_end :
    tableWf [{ refOilPressure with startByte := 7, startBit := 1 }] = false := by decide
/-- V8.6, W5: an 8-bit row with the sentinel 0xFE. -/
theorem test_table_sentinel_not_all_ones : tableWf [{ refOilPressure with notAvailableRaw := 0xFE }] = false := by decide
/-- W6: an infinite scale; a NaN offset. -/
theorem test_table_not_finite :
    tableWf [{ refOilPressure with scale := 0x7FF0000000000000 }] = false ∧
      tableWf [{ refOilPressure with offset := 0x7FF8000000000000 }] = false := by decide

/-! ### Decoding: a word of every operation, written out from R53 and R60 (Part 9 where it gives one) -/

/-- P1 step 2. -/
theorem test_word_parseId : decodeTableWord 429
    0x00000000000000000000000000000000000000000000000000000000000000000000000000000000000000000000000000018EA00FE0
      = some (.parseId 0x18EA00FE) := by decide +kernel
/-- P3 step 1. -/
theorem test_word_buildId : decodeTableWord 429
    0x0000000000000000000000009E0000600000000000000000000000000000000000000000000000000000000000000000000000000001
      = some (.buildId 3 0 0xF0 0x04 0x00) := by decide +kernel
/-- P2 step 1. -/
theorem test_word_getSpnDef : decodeTableWord 429
    0x0000000DC000000000000000000000000000000000000000000000000000000000000000000000000000000000000000000000000002
      = some (.getSpnDef 110) := by decide +kernel
/-- P4 steps 5 and 1, given in four bits: higher bits are zero. -/
theorem test_word_list_and_stats : decodeTableWord 4 0x3 = some .listPgns ∧ decodeTableWord 4 0x4 = some .dbStats := by
  decide +kernel
/-- P3 step 3. -/
theorem test_word_extract : decodeTableWord 429
    0x000000000000000000000000000000000000000000000000000000000000000000000000000000040380000004E20000000000000005
      = some (.extract ⟨0x0000004E20000000, 8⟩ ⟨3, 0, 16⟩) := by decide +kernel
/-- P2 step 2. -/
theorem test_word_decodeSpn : decodeTableWord 429
    0x000000000000000000000000000000000000000000001FF80880000000000007FE000000000000020080000000000000082000000006
      = some (.decodeSpn ⟨0x82, 8⟩ ⟨0, 0, 8⟩ 0x3FF0000000000000 0xC044000000000000 0xFF) := by decide +kernel
/-- P1 step 4: id at [35:4], data at [99:36], dlen at [103:100]. -/
theorem test_word_decodeFrame :
    decodeTableWord 429 (0x7 + 0x18FEE500 * 2 ^ 4 + 0xFFFFFFFF00011940 * 2 ^ 36 + 8 * 2 ^ 100)
      = some (.decodeFrame 0x18FEE500 ⟨0xFFFFFFFF00011940, 8⟩) := by decide +kernel
/-- P1 step 1. -/
theorem test_word_buildReq : decodeTableWord 429
    0x0000000000001FDCA01FC000000000000000000000000000000000000000000000000000000000000000000000000000000000000008
      = some (.buildReq 0xFE 0x00 65253) := by decide +kernel
/-- V8.1, V8.2, V8.3. -/
theorem test_word_refused :
    decodeTableWord 429 0x9 = none ∧ decodeTableWord 429 0xF = none ∧
      decodeTableWord 429 (0x5 + 9 * 2 ^ 100) = none ∧ decodeTableWord 429 (0x0 + 15 * 2 ^ 100) = some (.parseId 0) := by
  decide +kernel

/-! ### One step -/

/-- The responses after one step of the block after reset on an operation's request; none if it does not answer. -/
def answers (i : Instr) : Option (List Response) :=
  match step (State.reset.present (encode i)) with
  | .next t => some t.responses
  | _ => none

/-- V2.7: bits 31:29 are ignored, the reserved bit is copied. -/
theorem test_parseId_all_ones :
    answers (.parseId 0xFFFFFFFF) = some [.canIdentifier ⟨7, 1, 1, 255, 255, 255, 0x1FFFF⟩] := by decide
/-- E4: PDU format 239 is PDU1. -/
theorem test_parseId_pdu1 :
    answers (.parseId 0x0DEF5A21) = some [.canIdentifier ⟨3, 0, 1, 239, 0x5A, 0x21, 0x1EF00⟩] := by decide
/-- V2.14: operands are cut; bits 31:29 and 25 are 0. -/
theorem test_buildId_all_ones : answers (.buildId 0xFF 0xFF 0xFF 0xFF 0xFF) = some [.canId 0x1DFFFFFF] := by decide
/-- V2.15. -/
theorem test_buildId_masks : answers (.buildId 0x0B 2 0xF0 0x04 0xFE) = some [.canId 0x0CF004FE] := by decide
/-- V3.2. -/
theorem test_getSpnDef_last : answers (.getSpnDef 899) = some [.spnDef (some refTorqueMode)] := by decide +kernel
/-- V3.5: a PGN is no SPN. -/
theorem test_getSpnDef_unknown : answers (.getSpnDef 61444) = some [.spnDef none] := by decide
/-- V3.6. -/
theorem test_listPgns : answers .listPgns = some [.pgns [61444, 65262, 65263, 65253]] := by decide
/-- V8.4. -/
theorem test_listPgns_before_table : exec .listPgns (State.beforeTable .reference) = .refused .noTable := rfl
/-- V3.6. -/
theorem test_dbStats : answers .dbStats = some [.stats 6 4] := by decide
/-- The empty table of Part 3. -/
theorem test_dbStats_empty_table :
    exec .dbStats { State.reset with table := some ⟨[], by decide⟩ }
      = .next { State.reset with table := some ⟨[], by decide⟩, responses := [.stats 0 0] } := rfl
/-- V4.13: a field over four bytes. -/
theorem test_extract_four_bytes :
    answers (.extract ⟨0xEFCDAB8967452301, 8⟩ ⟨2, 6, 20⟩) = some [.raw (some 0xE259D)] := by decide
/-- V4.17: a field that ends at bit 65. -/
theorem test_extract_bit_65 : answers (.extract ⟨0xEFCDAB8967452301, 8⟩ ⟨0, 7, 58⟩) = some [.raw none] := by decide
/-- V5.20: two roundings. -/
theorem test_decodeSpn_rounds :
    answers (.decodeSpn ⟨3, 4⟩ ⟨0, 0, 32⟩ 0x3FA999999999999A 0 0xFFFFFFFF)
      = some [.value (some 0x3FC3333333333334)] := by decide +kernel
/-- V5.9: the comparison is with the operand. -/
theorem test_decodeSpn_sentinel_operand :
    answers (.decodeSpn ⟨0xFF, 1⟩ ⟨0, 0, 8⟩ 0x3FF0000000000000 0xC044000000000000 0xFE)
      = some [.value (some 0x406AE00000000000)] := by decide +kernel
/-- V6.3: registration order; the row that does not fit is left out. -/
theorem test_decodeFrame_short :
    answers (.decodeFrame 0x0CF00400 ⟨0xFF7D0003, 4⟩)
      = some [.decoded [⟨513, ascii "Actual Engine - Percent Torque", 0, ascii "%"⟩,
          ⟨899, ascii "Engine Torque Mode", 0x4008000000000000, []⟩]] := by decide +kernel
/-- V6.13: the data page is part of the PGN. -/
theorem test_decodeFrame_other_page :
    answers (.decodeFrame 0x0DF00400 ⟨0x0000004E20000000, 8⟩) = some [.decoded []] := by decide +kernel
/-- V7.1, E3. -/
theorem test_buildReq : answers (.buildReq 0xFE 0x00 65253) = some [.request ⟨0x18EA00FE, [0xE5, 0xFE, 0x00]⟩] := by
  decide
/-- V7.5: bits 31:24 of the PGN are dropped. -/
theorem test_buildReq_drops : answers (.buildReq 0x21 0x5A 0xAB01F05A)
    = some [.request ⟨0x18EA5A21, [0x5A, 0xF0, 0x01]⟩] := by decide
/-- V2.17. -/
theorem test_buildCanId_wide : buildCanId 0x0B 2 0x1F0 0x104 0x2FE = 0x0CF004FE := by decide
/-- V5.22, V5.19, V5.24: the conversion rounds to 2^64; the product rounds to 3600; cancellation gives +0. -/
theorem test_scaler_reference :
    scaleReference 0xFFFFFFFFFFFFFFFE 0x3FF0000000000000 0 = 0x43F0000000000000 ∧
      scaleReference 72000 0x3FA999999999999A 0 = 0x40AC200000000000 ∧
      scaleReference 125 0x3FF0000000000000 0xC05F400000000000 = 0 := by decide +kernel
/-- A row of the reference table in the definition ROM. -/
theorem test_rom_row : rowOfRom (romOfRow refEngineSpeed) = refEngineSpeed := by decide +kernel

/-! ### Witnesses: what the statements assume, met -/

/-- The block with a request waiting and a response pending. -/
def busy : State := { State.reset with requests := [encode (.parseId 7), encode .dbStats], responses := [.canId 5] }

/-- The block before its table, with one request waiting. -/
def early (i : Instr) : State := (State.beforeTable .reference).present (encode i)

/-- A request that reads no table waits; one that does waits; rows that are no table; a table that is built. -/
theorem witness_TableIsBuiltOnceFromWellFormedRows :
    ((early (.parseId 0)).table = none ∧
        (∀ q ∈ (early (.parseId 0)).requests, ∀ i, decode q = .ok i → i.readsTable = false) ∧
        tableWf refRows = true ∧ tableWf [refEngineSpeed, refEngineSpeed] = false) ∧
      ((early .dbStats).table = none ∧
        ∃ q ∈ (early .dbStats).requests, ∃ i, decode q = .ok i ∧ i.readsTable = true) ∧
      State.reset.table.isSome = true := by
  refine ⟨⟨rfl, ?_, by decide, by decide⟩, ⟨rfl, encode .dbStats, List.mem_singleton.2 rfl, .dbStats, rfl, rfl⟩, rfl⟩
  intro q hq i hi
  rw [List.mem_singleton.1 hq] at hi
  cases hi
  rfl

/-- V8.4: a DB_STATS issued before the table is refused when it is taken, and stops the building of the table; a
PARSE_ID does not (V8.5). -/
theorem test_early_requests :
    step (early .dbStats) = .refused .noTable ∧ (early .dbStats).buildTable refRows = .refused .noTable ∧
      (early (.parseId 0)).buildTable refRows = .next { early (.parseId 0) with table := some refTable } :=
  ⟨rfl, rfl, rfl⟩

/-- A DB_STATS that waits behind a PARSE_ID, a pending response, and a step that leads on. -/
theorem witness_EarlyTableRequestsAreNeverAnswered :
    let s : State := { early (.parseId 0) with requests := [encode (.parseId 0), encode .dbStats], responses := [.canId 5] }
    s.table = none ∧ encode .dbStats ∈ s.requests ∧ decode (encode .dbStats) = .ok .dbStats ∧
      Instr.dbStats.readsTable = true ∧ (∃ t, step s = .next t) ∧ (∃ r t, s.takeResponse = some (r, t)) ∧
      (early .dbStats).requests = [encode .dbStats] :=
  ⟨rfl, List.mem_cons_of_mem _ (List.mem_singleton.2 rfl), rfl, rfl, ⟨_, rfl⟩, ⟨_, _, rfl⟩, rfl⟩

theorem witness_ResponsesAreTakenOldestFirst : busy.responses = [.canId 5] ∧ State.reset.responses = [] := by decide

theorem witness_DecodeReadsBackEncode :
    (Instr.decodeFrame 0xFFFFFFFF ⟨0xFFFFFFFFFFFFFFFF, 8⟩).wf = true ∧ (Instr.extract ⟨0, 0⟩ ⟨7, 7, 127⟩).wf = true := by
  decide

/-- The clauses at op 9, op 5 and 7 with dlen 9, op 7 with dlen 8, op 4 and 8 with dlen 15. -/
theorem witness_DecodingRejectsExactlyReservedRequests :
    decode { Req.zero with op := 9, dlen := 9 } = .error (.badOp 9) ∧
      decode { Req.zero with op := 5, dlen := 9 } = .error (.badDlen 9) ∧
      decode { Req.zero with op := 7, dlen := 9 } = .error (.badDlen 9) ∧
      decode { Req.zero with op := 7, dlen := 8 } = .ok (.decodeFrame 0 ⟨0, 8⟩) ∧
      decode { Req.zero with op := 4, dlen := 15 } = .ok .dbStats ∧
      decode { Req.zero with op := 8, dlen := 15 } = .ok (.buildReq 0 0 0) := by decide

/-- Two different requests that agree on what BUILD_REQ and DECODE_FRAME read. -/
theorem witness_UnlistedPortsHaveNoEffect :
    SamePortsRead { Req.zero with op := 8, pgn := 1 } { Req.zero with op := 8, pgn := 1, spn := 2, dlen := 15 } ∧
      SamePortsRead { Req.zero with op := 7, id := 1 } { Req.zero with op := 7, id := 1, naRaw := 5 } :=
  ⟨⟨rfl, rfl, rfl, rfl⟩, ⟨rfl, rfl, rfl, rfl⟩⟩

theorem witness_StepRunsTheDecodedRequest :
    (busy.requests = [encode (.parseId 7), encode .dbStats] ∧ decode (encode (.parseId 7)) = .ok (.parseId 7)) ∧
      State.reset.requests = [] ∧ decodeTableWord 4 3 = some .listPgns := by decide +kernel

/-- Each refusal happens: op 9, op 5 with dlen 9, op 2 and op 7 before the table; op 7 with dlen 9 before the table gives
the payload's. -/
theorem witness_RefusalsAreThoseOfTheContract :
    step (State.reset.present { Req.zero with op := 9 }) = .refused (.badOp 9) ∧
      step (State.reset.present { Req.zero with op := 5, dlen := 9 }) = .refused (.badDlen 9) ∧
      step ((State.beforeTable .reference).present { Req.zero with op := 2 }) = .refused .noTable ∧
      step ((State.beforeTable .reference).present { Req.zero with op := 7, dlen := 8 }) = .refused .noTable ∧
      step ((State.beforeTable .reference).present { Req.zero with op := 7, dlen := 9 }) = .refused (.badDlen 9) :=
  ⟨rfl, rfl, rfl, rfl, rfl⟩

theorem witness_EveryAdmittedOperationIsAnswered :
    ((Instr.decodeFrame 0 ⟨0, 8⟩).wf = true ∧ ((Instr.decodeFrame 0 ⟨0, 8⟩).readsTable = true → busy.table.isSome = true)) ∧
      ((Instr.extract ⟨0, 8⟩ ⟨0, 0, 8⟩).wf = true ∧
        ((Instr.extract ⟨0, 8⟩ ⟨0, 0, 8⟩).readsTable = true → (State.beforeTable .reference).table.isSome = true)) := by
  decide

/-- Two different states of one configuration; and an operation both answer. -/
theorem witness_AnswerDependsOnRequestAndConfigurationOnly :
    (busy.table = State.reset.table ∧ busy.numerics = State.reset.numerics ∧ busy.requests ≠ State.reset.requests) ∧
      Answers .dbStats busy (.stats 6 4) := by
  refine ⟨⟨rfl, rfl, by decide⟩, ?_⟩
  rw [Answers, exec_dbStats rfl]
  rfl

theorem witness_OperationsChangeNothingButOneResponse :
    exec (.buildId 0 0 0 0 0) busy = .next (busy.addResponse (.canId 0)) := by
  rw [exec_buildId]
  rfl

theorem ready_busy : Ready busy := by
  intro q hq
  simp only [busy, List.mem_cons, List.not_mem_nil, or_false] at hq
  rcases hq with rfl | rfl
  · exact ⟨.parseId 7, by decide, by decide, by decide⟩
  · exact ⟨.dbStats, by decide, by decide, by decide⟩

theorem witness_ReadyBlockAnswersAndStaysReady : Ready busy ∧ busy.requests ≠ [] := ⟨ready_busy, by decide⟩

theorem witness_StepsKeepResponsesLegal :
    (ResponsesLegal busy ∧ busy.responses ≠ []) ∧ ∃ t, step busy = .next t := by
  refine ⟨⟨?_, by decide⟩, _, rfl⟩
  intro r hr
  simp only [busy, List.mem_singleton] at hr
  subst hr
  exact (by decide : (5 : U32) &&& 0xE2000000 = 0)

theorem witness_RunAnswersEachRequestIndependentlyInOrder :
    busy.table = some refTable ∧ busy.numerics = .reference ∧ Ready busy ∧ busy.requests.length = 2 :=
  ⟨rfl, rfl, ready_busy, rfl⟩

/-- The PDU1 and PDU2 clauses at 239 and 240 (E4). -/
theorem witness_PgnFollowsThePduFormat :
    pgnOf 1 239 0x5A = 0x1EF00 ∧ pgnOf 1 240 0x5A = 0x1F05A ∧ pgnOf 1 255 255 = 0x1FFFF := by decide

theorem witness_PduSpecificIsTheDestinationUnderPdu1 :
    destination (parseCanId 0x0DEF5A21) = some 0x5A ∧ destination (parseCanId 0x0DF05A21) = none := by decide

theorem witness_GetSpnDefReturnsTheRow :
    busy.table = some refTable ∧ (refTorqueMode ∈ refTable.rows ∧ refTorqueMode.spn = 899) ∧
      ∀ r ∈ refTable.rows, r.spn ≠ 111 := by
  refine ⟨rfl, ?_, by decide⟩
  simp [refTable, refRows, refTorqueMode]

theorem witness_IndicesDescribeTheOneTable :
    rowsBySpn refTable.rows 190 = some refEngineSpeed ∧ refEngineSpeed ∈ rowsByPgn refTable.rows 61444 := by
  refine ⟨by decide +kernel, ?_⟩
  simp [rowsByPgn, refTable, refRows, refEngineSpeed]

theorem witness_ListPgnsGivesEachPgnOnceInOrder : busy.table = some refTable := rfl
theorem witness_DbStatsCountsRowsAndPgns : busy.table = some refTable := rfl
theorem witness_StatsAgreeWithLookups : busy.table = some refTable := rfl

/-- The last bit of the longest payload, and the empty one. -/
theorem witness_StreamIsLittleEndian :
    stream 0x8000000000000000 8 = 2 ^ 63 ∧ (byteLane 0x8000000000000000 7).getLsbD 7 = true ∧ stream 5 0 = 0 := by decide

theorem witness_NestedFieldsReadTheSameBits : 8 ≤ 12 ∧ 12 + 4 ≤ 8 + 16 := by decide

/-- The two clauses at their boundaries: lengths 0, 1, 64 and 65, and a payload one byte short and just long enough. -/
theorem witness_ExtractReadsTheBitWindow :
    toPort (readField ⟨0xFF, 8⟩ ⟨0, 0, 0⟩) = none ∧ toPort (readField ⟨0xFF, 8⟩ ⟨0, 0, 65⟩) = none ∧
      toPort (readField ⟨0xFF, 1⟩ ⟨0, 1, 8⟩) = none ∧ toPort (readField ⟨0xFF, 2⟩ ⟨0, 1, 8⟩) = some 0x7F ∧
      toPort (readField ⟨0xFF, 1⟩ ⟨0, 7, 1⟩) = some 1 ∧ toPort (readField ⟨0xFF, 8⟩ ⟨0, 0, 64⟩) = some 0xFF := by decide

/-- A field at the last bit; one that ends at bit 65; a longer payload with the same first byte. -/
theorem witness_BoundsTestForms :
    fits 8 7 7 1 = true ∧ fits 8 7 7 2 = false ∧
      Answers (.extract ⟨0xFF, 1⟩ ⟨0, 0, 8⟩) busy (.raw (some 0xFF)) ∧
      bytesNeeded 0 0 8 = 1 ∧ byteLane 0xFF 0 = byteLane 0xAAFF 0 := by
  refine ⟨by decide, by decide, ?_, by decide, by decide⟩
  rw [Answers, exec_extract (by decide)]
  rfl

/-- Two payloads that differ in an unused lane only. -/
theorem witness_LanesAboveTheLengthAreIgnored :
    (SameBytes ⟨0xAA01, 1⟩ ⟨0xBB01, 1⟩ ∧ (0xAA01 : BitVec 64) ≠ 0xBB01) ∧ busy.table.isSome = true := by
  refine ⟨⟨⟨rfl, ?_⟩, by decide⟩, rfl⟩
  intro i hi
  have : i = 0 := by simpa using hi
  subst this
  decide

/-- The three cases: too short, the sentinel, a value. -/
theorem witness_DecodeSpnFollowsItsThreeSteps :
    toPort (readField ⟨0xFF, 0⟩ ⟨0, 0, 8⟩) = none ∧ toPort (readField ⟨0xFF, 1⟩ ⟨0, 0, 8⟩) = some 0xFF ∧
      toPort (readField ⟨0xFE, 1⟩ ⟨0, 0, 8⟩) = some 0xFE ∧ (0xFE : U64) ≠ 0xFF := by decide

/-- A one-bit and a 64-bit field with their sentinels; bits that are all 1, and one that is not. -/
theorem witness_AllOnesFieldHasNoValue :
    ((1 : U64).toNat + 1 = 2 ^ 1 ∧ 7 * 8 + 7 + 1 ≤ 8 * 8) ∧
      ((0xFFFFFFFFFFFFFFFF : U64).toNat + 1 = 2 ^ 64 ∧ 0 * 8 + 0 + 64 ≤ 8 * 8) ∧
      (stream 0x8000000000000000 8).testBit 63 = true ∧ (stream 0x8000000000000000 8).testBit 62 = false := by decide

/-- The overflow bound with a power of two taken out. -/
theorem overflowBound_eq : overflowBound = (2 ^ 54 - 1) * 2 ^ 970 := by
  rw [overflowBound, show (2 : ℚ) ^ 1024 = 2 ^ 54 * 2 ^ 970 by rw [← pow_add]]
  generalize (2 : ℚ) ^ 970 = w
  ring

/-- Small numbers are below the overflow bound. -/
theorem lt_overflowBound {x : ℚ} (h : x ≤ 1000) : x < overflowBound := by
  have : (1 : ℚ) ≤ 2 ^ 970 := one_le_pow₀ (by norm_num)
  rw [overflowBound_eq]
  generalize (2 : ℚ) ^ 970 = w at *
  norm_num
  linarith

theorem f64_one : f64ToRat 0x3FF0000000000000 = some 1 := by
  rw [f64ToRat, show Fp.ofBits 0x3FF0000000000000 = .fin false (2 ^ 52) (-52) by decide +kernel]
  norm_num [Fp.toRat, dyadic]

theorem f64_minus_forty : f64ToRat 0xC044000000000000 = some (-40) := by
  rw [f64ToRat, show Fp.ofBits 0xC044000000000000 = .fin true (5 * 2 ^ 50) (-47) by decide +kernel]
  norm_num [Fp.toRat, dyadic]

theorem f64_130 : f64ToRat 0x4060400000000000 = some 130 := by
  rw [f64ToRat, show Fp.ofBits 0x4060400000000000 = .fin false (130 * 2 ^ 45) (-45) by decide +kernel]
  norm_num [Fp.toRat, dyadic]

theorem f64_90 : f64ToRat 0x4056800000000000 = some 90 := by
  rw [f64ToRat, show Fp.ofBits 0x4056800000000000 = .fin false (90 * 2 ^ 46) (-46) by decide +kernel]
  norm_num [Fp.toRat, dyadic]

theorem f64_zero : f64ToRat 0 = some 0 := by
  rw [f64ToRat, show Fp.ofBits 0 = .fin false 0 (-1074) by decide +kernel]
  simp [Fp.toRat, dyadic]

theorem f64_two_pow_1023 : f64ToRat 0x7FE0000000000000 = some (2 ^ 1023) := by
  rw [f64ToRat, show Fp.ofBits 0x7FE0000000000000 = .fin false (2 ^ 52) (971 : Nat) by decide +kernel, Fp.toRat, dyadic,
    zpow_natCast, show (2 : ℚ) ^ 1023 = 2 ^ 52 * 2 ^ 971 by rw [← pow_add]]
  congr 2
  norm_num

/-- The numbers of E2: 130 * 1.0 + (-40.0) = 90.0, all exact. -/
theorem witness_ScalerIsExactInTheExactRegime :
    f64ToRat 0x3FF0000000000000 = some 1 ∧ f64ToRat 0xC044000000000000 = some (-40) ∧
      IsF64 ((130 : U64).toNat : ℚ) ∧ IsF64 (((130 : U64).toNat : ℚ) * 1) ∧
      IsF64 (((130 : U64).toNat : ℚ) * 1 + (-40)) := by
  have h : ((130 : U64).toNat : ℚ) = 130 := rfl
  rw [h, mul_one, show (130 : ℚ) + (-40) = 90 by norm_num]
  exact ⟨f64_one, f64_minus_forty, ⟨_, f64_130⟩, ⟨_, f64_130⟩, ⟨_, f64_90⟩⟩

/-- A small number, and the overflow bound itself. -/
theorem witness_RoundingIsToNearestTiesToEven :
    |dyadic true 3 (-1)| < overflowBound ∧ overflowBound ≤ |dyadic false (2 ^ 54 - 1) (970 : Nat)| := by
  constructor
  · apply lt_overflowBound
    norm_num [dyadic, abs_of_neg]
  · rw [dyadic, zpow_natCast, overflowBound_eq]
    refine le_trans (le_of_eq ?_) (le_abs_self _)
    congr 1
    norm_num

theorem witness_ReferenceScalerRoundsEachStep :
    f64ToRat 0x3FF0000000000000 = some 1 ∧ f64ToRat 0xC044000000000000 = some (-40) ∧
      (Fp.cvt (130 : U64).toNat).toRat = some 130 ∧ |(130 : ℚ) * 1| < overflowBound ∧
      |(130 : ℚ) + (-40)| < overflowBound := by
  refine ⟨f64_one, f64_minus_forty, ?_, lt_overflowBound (by norm_num), lt_overflowBound (by norm_num)⟩
  rw [show Fp.cvt (130 : U64).toNat = .fin false (130 * 2 ^ 45) (-45) by decide +kernel]
  norm_num [Fp.toRat, dyadic]

/-- A NaN scale; a product that overflows (2 times 2^1023); a negative finite scale; a subnormal scale; a present raw
value. -/
theorem witness_ScalerSpecialValues :
    isNan 0x7FF8000000000000 = true ∧
      ((Fp.cvt (2 : U64).toNat).toRat = some 2 ∧ f64ToRat 0x7FE0000000000000 = some (2 ^ 1023) ∧
        f64ToRat 0 = some 0 ∧ overflowBound ≤ |(2 : ℚ) * 2 ^ 1023|) ∧
      (isFinite 0xC00C000000000000 = true ∧ (0xC00C000000000000 : F64Bits).getLsbD 63 = true) ∧
      ((1 : F64Bits).extractLsb' 52 11 = 0 ∧ (1 : F64Bits).extractLsb' 0 52 ≠ 0) ∧
      Answers (.extract ⟨0xFE, 1⟩ ⟨0, 0, 8⟩) busy (.raw (some 0xFE)) := by
  refine ⟨by decide, ⟨?_, f64_two_pow_1023, f64_zero, ?_⟩, by decide, by decide, ?_⟩
  · rw [show Fp.cvt (2 : U64).toNat = .fin false (2 ^ 52) (-51) by decide +kernel]
    norm_num [Fp.toRat, dyadic]
  · refine le_trans ?_ (le_abs_self _)
    rw [overflowBound, show (2 : ℚ) * 2 ^ 1023 = 2 ^ 1024 by rw [← pow_succ']]
    exact sub_le_self _ (pow_nonneg (by norm_num) _)
  · rw [Answers, exec_extract (by decide)]
    rfl

/-- A table, a payload of 8 bytes, and a row that is selected (E1). -/
theorem witness_DecodeFrameComposesTheOtherOperations :
    busy.table = some refTable ∧ (Payload.mk 0x0000004E20000000 8).wf = true ∧
      refEngineSpeed.pgn = (parseCanId 0x0CF00400).pgn := ⟨rfl, by decide, by decide⟩

/-- V6.14: another priority and source under PDU2; another destination under PDU1. -/
theorem witness_DecodeFrameLooksAtThePgnOnly :
    ((0x0CF00400 : U32).toNat / 2 ^ 16 % 2 ^ 9 = (0x1CF004AB : U32).toNat / 2 ^ 16 % 2 ^ 9 ∧
      240 ≤ (0x0CF00400 : U32).toNat / 2 ^ 16 % 2 ^ 8 ∧
      (0x0CF00400 : U32).toNat / 2 ^ 8 % 2 ^ 8 = (0x1CF004AB : U32).toNat / 2 ^ 8 % 2 ^ 8) ∧
      ((0x18EA00FE : U32).toNat / 2 ^ 16 % 2 ^ 9 = (0x18EA21FE : U32).toNat / 2 ^ 16 % 2 ^ 9 ∧
        (0x18EA00FE : U32).toNat / 2 ^ 16 % 2 ^ 8 < 240) := by decide

/-- One byte, and the same byte with seven more. -/
theorem witness_LongerPayloadKeepsDecodedElements :
    busy.table.isSome = true ∧ (Payload.mk 0xFFFFFFFFFFFFFFFE 8).wf = true ∧ Extends ⟨0xFE, 1⟩ ⟨0xFFFFFFFFFFFFFFFE, 8⟩ := by
  refine ⟨rfl, by decide, by decide, ?_⟩
  intro i hi
  have : i = 0 := by simpa using hi
  subst this
  decide

/-- V5.12 to V5.14 and V5.5: each label, and a length of 65 on an empty payload. -/
theorem witness_AbsencesAreTestedInOrder :
    decodeSpnAbsence .reference ⟨0, 0⟩ ⟨0, 0, 65⟩ 0 0 0 = some .badLength ∧
      decodeSpnAbsence .reference ⟨0, 8⟩ ⟨0, 0, 0⟩ 0 0 0 = some .badLength ∧
      decodeSpnAbsence .reference ⟨0xFFFFFFFF, 4⟩ ⟨3, 0, 16⟩ 0 0 0xFFFF = some .short ∧
      decodeSpnAbsence .reference ⟨0xFF, 1⟩ ⟨0, 0, 8⟩ 0 0 0xFF = some .notAvailable ∧
      decodeSpnAbsence .reference ⟨0xFE, 1⟩ ⟨0, 0, 8⟩ 0 0 0xFF = none := by decide +kernel

theorem witness_ExtractTellsUnavailableFromShort :
    Answers (.decodeSpn ⟨0xFF, 1⟩ ⟨0, 0, 8⟩ 0 0 0xFF) busy (.value none) ∧
      Answers (.decodeSpn ⟨0xFF, 0⟩ ⟨0, 0, 8⟩ 0 0 0xFF) busy (.value none) := by
  constructor <;> (rw [Answers, exec_decodeSpn (by decide)]; rfl)

/-- An unknown SPN, an unknown PGN (V6.11) and a known one. -/
theorem witness_UnknownKeysAreAbsences :
    busy.table = some refTable ∧ spnDefAbsence refTable.rows 111 = some .unknownSpn ∧
      frameAbsence refTable.rows 0x18EA00FE = some .unknownPgn ∧ frameAbsence refTable.rows 0x0CF00400 = none :=
  ⟨rfl, by decide, by decide, by decide⟩

theorem witness_RomRowReadsBack :
    rowWf refTorqueMode = true ∧ refTorqueMode.name.length < 256 ∧ refTorqueMode.unit.length < 256 := by decide +kernel

/-- V6.8. -/
theorem witness_PortElementDenotesItsRow :
    ⟨110, ascii "Engine Coolant Temperature", 0x406AC00000000000, ascii "degC"⟩
      ∈ decodeFrame .reference refTable.rows 0x18FEEE00 ⟨0xFE, 1⟩ := by decide +kernel

/-- The reference table, and the answer of BUILD_REQ, whose identifier and payload fill their ports. -/
theorem witness_PortFieldsHoldTheirValues :
    busy.table = some refTable ∧ (∀ d ∈ refTable.rows, d.name.length < 256 ∧ d.unit.length < 256) ∧
      Answers (.buildReq 0xFF 0xFF 0xFFFFFF) busy (.request ⟨0x18EAFFFF, [0xFF, 0xFF, 0xFF]⟩) :=
  ⟨rfl, by decide +kernel, rfl⟩

/-- Program P2: the row of SPN 110 is found, and no row has SPN 111. -/
theorem witness_PseudoOperationUsesTheReturnedRow :
    busy.table = some refTable ∧ (Payload.mk 130 8).wf = true ∧ refCoolantTemperature.spn = 110 ∧
      decodeSpnT ⟨130, 8⟩ (rowsBySpn refTable.rows 110)
        = some (.decodeSpn ⟨130, 8⟩ ⟨0, 0, 8⟩ 0x3FF0000000000000 0xC044000000000000 0xFF) ∧
      ∀ r ∈ refTable.rows, r.spn ≠ 111 := ⟨rfl, by decide, by decide, by decide, by decide⟩

end Sys2Proof.Tests
end

/-! The payload and the frame of the operations (spec/20_memory.md R31, R38). -/

namespace Sys2Proof.Machine

/-- Settles O14: what an operation can do is to add one response (`exec_next`), and adding one changes no other
field. -/
theorem operationsChangeNothingButOneResponse : Obligations.OperationsChangeNothingButOneResponse := by
  intro i s t h
  obtain ⟨r, rfl⟩ := exec_next h
  exact ⟨s.addResponse_table r, s.addResponse_numerics r, s.addResponse_requests r, r, s.addResponse_responses r⟩

/-- The stream is the sum of its bytes, each at the weight of its place (R31). -/
theorem stream_eq_sum (data : BitVec 64) (n : Nat) :
    stream data n = ∑ i ∈ Finset.range n, (byteLane data i).toNat * 2 ^ (8 * i) := by
  induction n with
  | zero => rfl
  | succ n ih => rw [stream, ih, Finset.sum_range_succ]

/-- Bit `b` of byte `i`, for a byte below the length, is bit `8*i + b` of the stream (R31). -/
theorem stream_testBit_of_lt (data : BitVec 64) {n i b : Nat} (hi : i < n) (hb : b < 8) :
    (stream data n).testBit (8 * i + b) = (byteLane data i).getLsbD b := by
  have hpos : 8 * i + b < 8 * n := by omega
  rw [stream_eq_mod, Nat.testBit_mod_two_pow, BitVec.testBit_toNat, byteLane, bits_getLsbD]
  simp [hpos, hb]

/-- Settles O30: the sum is the recursion of `stream`; the bits and the bound are those of the closed form
`stream_eq_mod`. The length may be any. -/
theorem streamIsLittleEndian : Obligations.StreamIsLittleEndian := fun data dlen _ =>
  ⟨stream_eq_sum data dlen, fun _ _ hi hb => stream_testBit_of_lt data hi hb, stream_lt data dlen⟩

end Sys2Proof.Machine

/-! The ports an operation reads and the kind of its response (spec/30_encoding.md R61). -/

namespace Sys2Proof

/-- Requests that agree on the payload's ports have the same payload operand. -/
theorem Req.payload_congr {q q' : Req} (hdata : q.data = q'.data) (hdlen : q.dlen = q'.dlen) :
    q.payload = q'.payload := by
  rw [Req.payload, Req.payload, hdata, hdlen]

/-- Requests that agree on the field's ports have the same field operand. -/
theorem Req.field_congr {q q' : Req} (hbyte : q.startByte = q'.startByte) (hbit : q.startBit = q'.startBit)
    (hlen : q.lengthBits = q'.lengthBits) : q.field = q'.field := by
  rw [Req.field, Req.field, hbyte, hbit, hlen]

/-- Of a request, the admission of the payload looks at the payload only. -/
theorem withPayload_congr {q q' : Req} (h : q.payload = q'.payload) (i : Instr) :
    withPayload q i = withPayload q' i := by
  have hdlen : q.dlen = q'.dlen := congrArg Payload.dlen h
  rw [withPayload, withPayload, h, hdlen]

/-- The decoder reads the ports of R61 and no others, whatever the code; of a reserved code it reads the code alone. -/
theorem SamePortsRead.decode_eq {q q' : Req} (h : SamePortsRead q q') : decode q = decode q' := by
  obtain ⟨hop, hports⟩ := h
  have hcode : q'.op.toNat = q.op.toNat := congrArg BitVec.toNat hop.symm
  rcases op_cases q with h | h | h | h | h | h | h | h | h | h
  · simp only [h] at hports
    rw [decode_parseId h, decode_parseId (hcode.trans h), hports]
  · simp only [h] at hports
    obtain ⟨hp, hd, hf, hs, ha⟩ := hports
    rw [decode_buildId h, decode_buildId (hcode.trans h), hp, hd, hf, hs, ha]
  · simp only [h] at hports
    rw [decode_getSpnDef h, decode_getSpnDef (hcode.trans h), hports]
  · rw [decode_listPgns h, decode_listPgns (hcode.trans h)]
  · rw [decode_dbStats h, decode_dbStats (hcode.trans h)]
  · simp only [h] at hports
    obtain ⟨hdata, hdlen, hbyte, hbit, hlen⟩ := hports
    have hpayload := Req.payload_congr hdata hdlen
    rw [decode_extract h, decode_extract (hcode.trans h), withPayload_congr hpayload, hpayload,
      Req.field_congr hbyte hbit hlen]
  · simp only [h] at hports
    obtain ⟨hdata, hdlen, hbyte, hbit, hlen, hscale, hoffset, hna⟩ := hports
    have hpayload := Req.payload_congr hdata hdlen
    rw [decode_decodeSpn h, decode_decodeSpn (hcode.trans h), withPayload_congr hpayload, hpayload,
      Req.field_congr hbyte hbit hlen, hscale, hoffset, hna]
  · simp only [h] at hports
    obtain ⟨hid, hdata, hdlen⟩ := hports
    have hpayload := Req.payload_congr hdata hdlen
    rw [decode_decodeFrame h, decode_decodeFrame (hcode.trans h), withPayload_congr hpayload, hpayload, hid]
  · simp only [h] at hports
    obtain ⟨hsa, hda, hpgn⟩ := hports
    rw [decode_buildReq h, decode_buildReq (hcode.trans h), hsa, hda, hpgn]
  · rw [decode_reserved h, decode_reserved (h.trans_eq hcode.symm), hop]

end Sys2Proof

namespace Sys2Proof.Machine

/-- What a step does depends on the oldest request through the operation it decodes to only. -/
theorem step_eq_of_decode_eq {q q' : Req} (h : decode q = decode q') (s : State) (rest : List Req) :
    step { s with requests := q :: rest } = step { s with requests := q' :: rest } := by
  cases hd : decode q with
  | ok i => rw [step_ok rfl hd, step_ok rfl (h ▸ hd)]
  | error e => rw [step_error rfl hd, step_error rfl (h ▸ hd)]

/-- An answer from the table is of the kind its function gives for every table. -/
theorem respondFromTable_answersTo {s t : State} {i : Instr} {f : List SpnDefinition → Response}
    (h : respondFromTable s f = .next t) (hf : ∀ rows, (f rows).answersTo i = true) :
    ∃ r, t = s.addResponse r ∧ r.answersTo i = true := by
  obtain ⟨table, -, ht⟩ := respondFromTable_next h
  exact ⟨_, ht, hf table.rows⟩

/-- Whatever leads to a next state added one response, of the kind R61 gives the operation. -/
theorem exec_next_answersTo {i : Instr} {s t : State} (h : exec i s = .next t) :
    ∃ r, t = s.addResponse r ∧ r.answersTo i = true := by
  cases i with
  | parseId id => exact ⟨_, (Host.Outcome.next.inj h).symm, rfl⟩
  | buildId p d f ps sa => exact ⟨_, (Host.Outcome.next.inj h).symm, rfl⟩
  | getSpnDef spn => exact respondFromTable_answersTo (f := fun rows => .spnDef (rowsBySpn rows spn)) h fun _ => rfl
  | listPgns => exact respondFromTable_answersTo (f := fun rows => .pgns (distinctPgns rows)) h fun _ => rfl
  | dbStats =>
    exact respondFromTable_answersTo (f := fun rows => .stats (spnCount rows) (pgnCount rows)) h fun _ => rfl
  | extract p f => exact ⟨_, (Host.Outcome.next.inj (admitPayload_next h).2).symm, rfl⟩
  | decodeSpn p f sc off na => exact ⟨_, (Host.Outcome.next.inj (admitPayload_next h).2).symm, rfl⟩
  | decodeFrame id p => exact respondFromTable_answersTo (admitPayload_next h).2 fun _ => rfl
  | buildReq sa da pgn => exact ⟨_, (Host.Outcome.next.inj h).symm, rfl⟩

/-- Settles O9: a step looks at a request through the decoder only, which reads the listed ports only
(`SamePortsRead.decode_eq`); the kind of the response is that of the operation's meaning. -/
theorem unlistedPortsHaveNoEffect : Obligations.UnlistedPortsHaveNoEffect :=
  ⟨fun _ _ s rest h => step_eq_of_decode_eq h.decode_eq s rest, fun _ _ _ h => exec_next_answersTo h⟩

end Sys2Proof.Machine

/-! Parsing an identifier (spec/40_can_id.md R80 to R82). -/

namespace Sys2Proof.Machine

/-- A slice that lies below a mask of low ones does not see the mask. -/
theorem bits_and_lowOnes {v m : BitVec w} {k lo n : Nat} (hm : m.toNat = 2 ^ k - 1) (h : lo + n ≤ k) :
    bits (v &&& m) lo n = bits v lo n := by
  apply BitVec.eq_of_getLsbD_eq
  intro i hi
  have hbit : m.getLsbD (lo + i) = true := by
    rw [← BitVec.testBit_toNat, hm, Nat.testBit_two_pow_sub_one, decide_eq_true (by omega)]
  rw [bits_getLsbD, bits_getLsbD, BitVec.getLsbD_and, hbit, Bool.and_true]

section
variable (id : U32)

@[simp] theorem parseCanId_priority_toNat : (parseCanId id).priority.toNat = id.toNat / 2 ^ 26 % 2 ^ 3 :=
  bits_toNat id 26 3

@[simp] theorem parseCanId_reserved_toNat : (parseCanId id).reserved.toNat = id.toNat / 2 ^ 25 % 2 :=
  bits_toNat id 25 1

@[simp] theorem parseCanId_dataPage_toNat : (parseCanId id).dataPage.toNat = id.toNat / 2 ^ 24 % 2 :=
  bits_toNat id 24 1

@[simp] theorem parseCanId_pduFormat_toNat : (parseCanId id).pduFormat.toNat = id.toNat / 2 ^ 16 % 2 ^ 8 :=
  bits_toNat id 16 8

@[simp] theorem parseCanId_pduSpecific_toNat : (parseCanId id).pduSpecific.toNat = id.toNat / 2 ^ 8 % 2 ^ 8 :=
  bits_toNat id 8 8

@[simp] theorem parseCanId_sourceAddress_toNat : (parseCanId id).sourceAddress.toNat = id.toNat % 2 ^ 8 := by
  rw [parseCanId, bits_toNat, pow_zero, Nat.div_one]

/-- The PGN of the record is the one derived from its other fields (R81). -/
theorem parseCanId_pgn :
    (parseCanId id).pgn = pgnOf (parseCanId id).dataPage (parseCanId id).pduFormat (parseCanId id).pduSpecific := rfl

/-- Every field lies below bit 29, so bits 31:29 have no effect (R80). -/
theorem parseCanId_and_mask : parseCanId (id &&& 0x1FFFFFFF) = parseCanId id := by
  have hslice (lo n : Nat) (h : lo + n ≤ 29) : bits (id &&& 0x1FFFFFFF) lo n = bits id lo n :=
    bits_and_lowOnes rfl h
  rw [parseCanId, parseCanId, hslice 26 3 (by decide), hslice 25 1 (by decide), hslice 24 1 (by decide),
    hslice 16 8 (by decide), hslice 8 8 (by decide), hslice 0 8 (by decide)]

end

/-- Settles O19: the answer is the record of `parseCanId`, whose fields are slices below bit 29. -/
theorem parseIdReturnsTheFields : Obligations.ParseIdReturnsTheFields := by
  refine ⟨fun q hop => decode_parseId (congrArg BitVec.toNat hop), fun id s => ⟨?_, ?_⟩⟩
  · exact ⟨parseCanId id, exec_parseId id s, parseCanId_priority_toNat id, parseCanId_reserved_toNat id,
      parseCanId_dataPage_toNat id, parseCanId_pduFormat_toNat id, parseCanId_pduSpecific_toNat id,
      parseCanId_sourceAddress_toNat id, parseCanId_pgn id⟩
  · rw [exec_parseId, exec_parseId, parseCanId_and_mask]

/-- Under PDU2 the PDU specific byte is the last summand of the PGN (R81). -/
theorem pgnOf_toNat_pdu2 (dp : BitVec 1) {pf : Byte} (ps : Byte) (h : 240 ≤ pf.toNat) :
    (pgnOf dp pf ps).toNat = dp.toNat * 2 ^ 16 + pf.toNat * 2 ^ 8 + ps.toNat := by
  rw [pgnOf_toNat, if_pos h]

/-- Under PDU1 the PDU specific byte is no part of the PGN (R81). -/
theorem pgnOf_toNat_pdu1 (dp : BitVec 1) {pf : Byte} (ps : Byte) (h : pf.toNat < 240) :
    (pgnOf dp pf ps).toNat = dp.toNat * 2 ^ 16 + pf.toNat * 2 ^ 8 := by
  rw [pgnOf_toNat, if_neg (Nat.not_le.2 h), Nat.add_zero]

/-- The PGN takes 17 bits: one of the data page and two bytes (R81). -/
theorem pgnOf_toNat_le (dp : BitVec 1) (pf ps : Byte) : (pgnOf dp pf ps).toNat ≤ 0x1FFFF := by
  have hdp := dp.isLt
  have hpf := pf.isLt
  have hps := ps.isLt
  rcases Nat.lt_or_ge pf.toNat 240 with h | h
  · rw [pgnOf_toNat_pdu1 dp ps h]; omega
  · rw [pgnOf_toNat_pdu2 dp ps h]; omega

/-- Settles O20: the two sides of the threshold and the bound are the three lemmas above. -/
theorem pgnFollowsThePduFormat : Obligations.PgnFollowsThePduFormat := fun dp pf ps =>
  ⟨pgnOf_toNat_pdu2 dp ps, pgnOf_toNat_pdu1 dp ps, pgnOf_toNat_le dp pf ps⟩

/-- Under PDU2 the low byte of the PGN is the PDU specific byte (R82). -/
theorem pgnOf_lowByte_pdu2 (dp : BitVec 1) {pf : Byte} (ps : Byte) (h : 240 ≤ pf.toNat) :
    (pgnOf dp pf ps).toNat % 2 ^ 8 = ps.toNat := by
  have hps := ps.isLt
  rw [pgnOf_toNat_pdu2 dp ps h]
  omega

/-- Under PDU1 the PDU specific byte is the destination (R82). -/
theorem destination_pdu1 {c : CanIdentifier} (h : c.pduFormat.toNat < 240) : destination c = some c.pduSpecific :=
  if_neg fun hpdu2 => absurd (isPdu2_iff.1 hpdu2) (Nat.not_le.2 h)

/-- Under PDU2 there is no destination (R82). -/
theorem destination_pdu2 {c : CanIdentifier} (h : 240 ≤ c.pduFormat.toNat) : destination c = none :=
  if_pos (isPdu2_iff.2 h)

/-- Settles O21: the answer is the record of `parseCanId`; its destination is read off the PDU format, and its PGN is
the derived one, so `pgnOf_lowByte_pdu2` applies. -/
theorem pduSpecificIsTheDestinationUnderPdu1 : Obligations.PduSpecificIsTheDestinationUnderPdu1 := fun id s =>
  ⟨parseCanId id, exec_parseId id s, parseCanId_pduSpecific_toNat id, destination_pdu1, fun h =>
    ⟨destination_pdu2 h, pgnOf_lowByte_pdu2 (parseCanId id).dataPage (parseCanId id).pduSpecific h⟩⟩

end Sys2Proof.Machine

/-! The definition database (spec/41_database.md R111 to R114, R120). -/

namespace Sys2Proof.Machine

/-- A row is found by its own SPN: the row found has the same SPN, and the SPNs of a table are pairwise different
(R111). -/
theorem rowsBySpn_of_mem (t : SpnTable) {r : SpnDefinition} (hr : r ∈ t.rows) :
    rowsBySpn t.rows r.spn = some r := by
  cases hfound : rowsBySpn t.rows r.spn with
  | none => exact absurd rfl (rowsBySpn_none.1 hfound r hr)
  | some q =>
    obtain ⟨hq, hspn⟩ := rowsBySpn_some hfound
    exact congrArg some (List.inj_on_of_nodup_map t.spns_nodup hq hr hspn)

/-- The rows listed under a PGN keep the registration order (R112). -/
theorem rowsByPgn_sublist (rows : List SpnDefinition) (p : U32) : (rowsByPgn rows p).Sublist rows :=
  List.filter_sublist

/-- Settles O26: a row is found by its SPN because W1 makes the SPNs of a table pairwise different
(`rowsBySpn_of_mem`); the other clauses hold of every list of rows. -/
theorem indicesDescribeTheOneTable : Obligations.IndicesDescribeTheOneTable := fun t =>
  ⟨fun _ => rowsBySpn_of_mem t, fun _ _ => rowsBySpn_some, fun _ => rowsBySpn_none.2, fun _ _ => mem_rowsByPgn,
    rowsByPgn_sublist t.rows⟩

/-- Settles O25: the answer is the row that the SPN index gives, which is the row with the SPN when there is one
(`rowsBySpn_of_mem`) and nothing otherwise. -/
theorem getSpnDefReturnsTheRow : Obligations.GetSpnDefReturnsTheRow := by
  refine ⟨fun q hop => decode_getSpnDef (congrArg BitVec.toNat hop), fun s t spn htable => ⟨?_, fun habsent => ?_⟩⟩
  · rintro r hr rfl
    rw [Answers, exec_getSpnDef htable, rowsBySpn_of_mem t hr]
  · rw [Answers, exec_getSpnDef htable, rowsBySpn_none.2 habsent]

/-- No PGN is among the distinct PGNs twice (R116). -/
theorem distinctPgns_nodup (rows : List SpnDefinition) : (distinctPgns rows).Nodup := newPgns_nodup

/-- As a set, the distinct PGNs are the PGNs of the rows (R116). -/
theorem distinctPgns_toFinset (rows : List SpnDefinition) :
    (distinctPgns rows).toFinset = (rows.map (fun r => r.pgn)).toFinset := by
  ext p
  rw [List.mem_toFinset, List.mem_toFinset, mem_distinctPgns, List.mem_map]

/-- There are as many distinct PGNs as the set of the rows' PGNs has members (R120). -/
theorem distinctPgns_length (rows : List SpnDefinition) :
    (distinctPgns rows).length = (rows.map (fun r => r.pgn)).toFinset.card := by
  rw [← distinctPgns_toFinset, List.toFinset_card_of_nodup (distinctPgns_nodup rows)]

/-- Settles O28: W7 keeps both counts within their ports (`spnCount_toNat`, `pgnCount_toNat`), and the PGNs counted are
the members of the set of the rows' PGNs, each once (`distinctPgns_length`). -/
theorem dbStatsCountsRowsAndPgns : Obligations.DbStatsCountsRowsAndPgns :=
  ⟨fun _ hop => decode_dbStats (congrArg BitVec.toNat hop), fun _ t htable =>
    ⟨spnCount t.rows, pgnCount t.rows, exec_dbStats htable, spnCount_toNat t,
      (pgnCount_toNat t).trans (distinctPgns_length t.rows)⟩⟩

end Sys2Proof.Machine

/-! The shifter and the three steps of a decoded value (spec/42_extract_scale.md R90, R100). -/

namespace Sys2Proof.Machine

/-- A port carries a value exactly when the result is that value. -/
theorem toPort_eq_some_iff {r : Except Absence α} {a : α} : toPort r = some a ↔ r = .ok a := by
  cases r <;> simp [toPort, Except.toOption]

/-- A port carries nothing exactly when the result is no value. -/
theorem toPort_eq_none_iff {r : Except Absence α} : toPort r = none ↔ ∀ a, r ≠ .ok a := by
  rw [Option.eq_none_iff_forall_ne_some]
  exact forall_congr' fun _ => not_congr toPort_eq_some_iff

/-- Why a field is absent: its length cannot be read, or the payload has fewer bytes than it needs (R90, R91). -/
theorem toPort_extractBits_eq_none_iff {data : BitVec 64} {dlen b t l : Nat} :
    toPort (extractBits data dlen b t l) = none ↔ l = 0 ∨ 64 < l ∨ dlen < bytesNeeded b t l := by
  have hneed : bytesNeeded b t l ≤ dlen ↔ fieldPos b t + l ≤ 8 * dlen := by
    rw [← fits_iff, fits, decide_eq_true_eq]
  simp only [toPort_eq_none_iff, Ne, extractBits_eq_ok, ← hneed]
  constructor
  · intro h
    by_contra hread
    exact h _ ⟨by omega, by omega, by omega, rfl⟩
  · rintro habsent raw ⟨hpos, hmax, hfits, -⟩
    omega

/-- Bit `k` of the `data` port lies in lane `k / 8` at place `k % 8` (R30, R31). -/
theorem byteLane_getLsbD_div_mod (data : BitVec 64) (k : Nat) :
    (byteLane data (k / 8)).getLsbD (k % 8) = data.getLsbD k := by
  rw [byteLane, bits_getLsbD, Nat.div_add_mod, decide_eq_true (Nat.mod_lt k (by decide)), Bool.true_and]

/-- The bits of a raw value: those of the field's window, each in its lane of the payload, and 0 above (R90). -/
theorem getLsbD_of_extractBits_eq_ok {data : BitVec 64} {dlen b t l : Nat} {raw : U64}
    (h : extractBits data dlen b t l = .ok raw) (i : Nat) :
    raw.getLsbD i =
      (decide (i < l) && (byteLane data ((fieldPos b t + i) / 8)).getLsbD ((fieldPos b t + i) % 8)) := by
  obtain ⟨-, hmax, hfits, rfl⟩ := extractBits_eq_ok.1 h
  have hinside : (i < l ∧ fieldPos b t + i < 8 * dlen) ↔ i < l := by omega
  rw [← BitVec.testBit_toNat, raw_toNat hmax, memRead_testBit, byteLane_getLsbD_div_mod]
  simp only [hinside]

/-- Settles O32: the answer is the field at the port; it is nothing for the two reasons of
`toPort_extractBits_eq_none_iff`, and otherwise has the bits of the window (`getLsbD_of_extractBits_eq_ok`). -/
theorem extractReadsTheBitWindow : Obligations.ExtractReadsTheBitWindow := by
  refine ⟨fun q hop hdlen => ?_, fun p f s hdlen => ⟨fun habsent => ?_, fun hpos hmax hneed => ?_⟩⟩
  · rw [decode_extract (congrArg BitVec.toNat hop), withPayload_of_le hdlen]
  · have hnone : toPort (readField p f) = none := toPort_extractBits_eq_none_iff.2 habsent
    rw [Answers, exec_extract (Payload.wf_iff.2 hdlen), hnone]
  · obtain ⟨raw, hread⟩ : ∃ raw, readField p f = .ok raw :=
      ⟨_, extractBits_eq_ok.2 ⟨hpos, hmax, fits_iff.1 (decide_eq_true hneed), rfl⟩⟩
    refine ⟨raw, ?_, getLsbD_of_extractBits_eq_ok hread⟩
    rw [Answers, exec_extract (Payload.wf_iff.2 hdlen), toPort_eq_some_iff.2 hread]

/-- A decoded value at the port: the extracted raw value, unless it is the sentinel, scaled (R100). -/
theorem toPort_decodeSpn (num : Numerics) (data : BitVec 64) (dlen b t l : Nat) (sc off : F64Bits) (na : U64) :
    toPort (decodeSpn num data dlen b t l sc off na) =
      (toPort (extractBits data dlen b t l)).bind
        (fun raw => if raw = na then none else some (scaleValue num raw sc off)) := by
  unfold decodeSpn
  cases extractBits data dlen b t l with
  | error a => rfl
  | ok raw =>
    by_cases hna : raw = na <;> simp [scaleRaw, isNotAvailable, toPort, Except.toOption, hna]

/-- The answer of DECODE_SPN is that of EXTRACT for the same field, unless it is the sentinel, scaled (R100). -/
theorem exec_decodeSpn_of_readField {p : Payload} (h : p.wf = true) (f : Field) (sc off : F64Bits) (na : U64)
    (s : State) :
    exec (.decodeSpn p f sc off na) s = .next (s.addResponse (.value ((toPort (readField p f)).bind
      (fun raw => if raw = na then none else some (scaleValue s.numerics raw sc off))))) := by
  rw [exec_decodeSpn h, toPort_decodeSpn, readField]

/-- Settles O35: the answer `e` of EXTRACT is the field at the port, and each clause is the answer of DECODE_SPN as
`exec_decodeSpn_of_readField` computes it from `e`. -/
theorem decodeSpnFollowsItsThreeSteps : Obligations.DecodeSpnFollowsItsThreeSteps := by
  refine ⟨fun q hop hdlen => ?_, fun p f sc off na s hwf =>
    ⟨toPort (readField p f), exec_extract hwf f s, fun hnone => ?_, fun hsentinel => ?_, fun raw hraw hna => ?_⟩⟩
  · rw [decode_decodeSpn (congrArg BitVec.toNat hop), withPayload_of_le hdlen]
  · rw [Answers, exec_decodeSpn_of_readField hwf, hnone, Option.bind_none]
  · rw [Answers, exec_decodeSpn_of_readField hwf, hsentinel, Option.bind_some, if_pos rfl]
  · rw [Answers, exec_decodeSpn_of_readField hwf, hraw, Option.bind_some, if_neg hna]

end Sys2Proof.Machine

/-! The frame decoder as the composition of the other operations (spec/43_frame.md R130). -/

namespace Sys2Proof.Machine

/-- The place and the length of a well-formed row's field fit the operand ports of DECODE_SPN (R110, R13). -/
theorem field_fits_of_rowWf {r : SpnDefinition} (h : rowWf r = true) :
    r.startByte < 2 ^ 3 ∧ r.startBit < 2 ^ 3 ∧ r.lengthBits < 2 ^ 7 := by
  obtain ⟨hbyte, hbit, -, hlen, -⟩ := rowWf_iff.1 h
  omega

/-- DECODE_SPN with the fields of a well-formed row on its ports answers what the row gives in a frame (R130). -/
theorem exec_decodeWithRow {p : Payload} (hp : p.wf = true) {r : SpnDefinition} (hr : rowWf r = true) (s : State) :
    exec (decodeWithRow p r) s = .next (s.addResponse (.value (toPort (decodeRow s.numerics p r)))) := by
  obtain ⟨hbyte, hbit, hlen⟩ := field_fits_of_rowWf hr
  rw [decodeWithRow, exec_decodeSpn hp, BitVec.toNat_ofNat, BitVec.toNat_ofNat, BitVec.toNat_ofNat,
    Nat.mod_eq_of_lt hbyte, Nat.mod_eq_of_lt hbit, Nat.mod_eq_of_lt hlen, decodeRow]

/-- Settles O41: the record is that of PARSE_ID, and the value of a row is that of `decodeRow`, which DECODE_SPN answers
because the fields of a table's row fit its ports (`exec_decodeWithRow`); selecting the rows and making the elements is
then the definition of `decodeFrame`. -/
theorem decodeFrameComposesTheOtherOperations : Obligations.DecodeFrameComposesTheOtherOperations := by
  refine ⟨fun q hop hdlen => ?_, fun s t id p htable hwf =>
    ⟨parseCanId id, fun r => toPort (decodeRow s.numerics p r), exec_parseId id s, fun r hr => ?_, ?_⟩⟩
  · rw [decode_decodeFrame (congrArg BitVec.toNat hop), withPayload_of_le hdlen]
  · exact exec_decodeWithRow hwf (t.row_wf hr) s
  · exact exec_decodeFrame hwf htable id

end Sys2Proof.Machine

/-! Every admitted operation is answered (spec/60_exceptions.md R140, R146). -/

namespace Sys2Proof.Machine

/-- An operation inside the input contract answers, from the table where it reads one (R140, R146). -/
theorem exec_answers {i : Instr} {s : State} (hwf : i.wf = true)
    (htable : i.readsTable = true → ∃ t, s.table = some t) : ∃ r, Answers i s r := by
  cases i with
  | parseId id => exact ⟨_, exec_parseId id s⟩
  | buildId p d f ps sa => exact ⟨_, exec_buildId p d f ps sa s⟩
  | getSpnDef spn =>
    obtain ⟨t, ht⟩ := htable rfl
    exact ⟨_, exec_getSpnDef ht spn⟩
  | listPgns =>
    obtain ⟨t, ht⟩ := htable rfl
    exact ⟨_, exec_listPgns ht⟩
  | dbStats =>
    obtain ⟨t, ht⟩ := htable rfl
    exact ⟨_, exec_dbStats ht⟩
  | extract p f => exact ⟨_, exec_extract hwf f s⟩
  | decodeSpn p f sc off na => exact ⟨_, exec_decodeSpn hwf f sc off na s⟩
  | decodeFrame id p =>
    obtain ⟨t, ht⟩ := htable rfl
    exact ⟨_, exec_decodeFrame hwf ht id⟩
  | buildReq sa da pgn => exact ⟨_, exec_buildReq sa da pgn s⟩

/-- Settles O12: each operation has its answer (`exec_answers`), and there is no fault that a step could end in, since
the block has no exceptions (R140). -/
theorem everyAdmittedOperationIsAnswered : Obligations.EveryAdmittedOperationIsAnswered :=
  ⟨fun _ _ hwf htable => exec_answers hwf fun hreads => Option.isSome_iff_exists.1 (htable hreads),
    fun _ f => nomatch f⟩

end Sys2Proof.Machine

/-! An answer depends on the operation and the configuration only (spec/70_reset_and_hazards.md R165,
spec/43_frame.md R132). -/

namespace Sys2Proof.Machine

/-- The outcomes in two states agree: both add the same response, or both are the same refusal. The states themselves
may differ in their queues, so equality of the outcomes would say too much. -/
inductive SameOutcome (s s' : State) :
    Host.Outcome State Fault Refusal → Host.Outcome State Fault Refusal → Prop where
  | answered (r : Response) : SameOutcome s s' (.next (s.addResponse r)) (.next (s'.addResponse r))
  | refused (e : Refusal) : SameOutcome s s' (.refused e) (.refused e)

section
variable {s s' : State} {o o' : Host.Outcome State Fault Refusal}

/-- Outcomes that agree give the same answers. -/
theorem SameOutcome.next_iff (h : SameOutcome s s' o o') (r : Response) :
    o = .next (s.addResponse r) ↔ o' = .next (s'.addResponse r) := by
  cases h with
  | answered r' => rw [Host.Outcome.next.injEq, Host.Outcome.next.injEq, State.addResponse_inj, State.addResponse_inj]
  | refused e => exact ⟨nofun, nofun⟩

/-- Outcomes that agree give the same refusals. -/
theorem SameOutcome.refused_iff (h : SameOutcome s s' o o') (e : Refusal) : o = .refused e ↔ o' = .refused e := by
  cases h with
  | answered r => exact ⟨nofun, nofun⟩
  | refused e' => exact Iff.rfl

/-- Admitting a payload looks at the payload only. -/
theorem sameOutcome_admitPayload (p : Payload) (h : SameOutcome s s' o o') :
    SameOutcome s s' (admitPayload p o) (admitPayload p o') := by
  cases hwf : p.wf with
  | true => rwa [admitPayload_wf hwf, admitPayload_wf hwf]
  | false => rw [admitPayload_not_wf hwf, admitPayload_not_wf hwf]; exact .refused _

/-- Of the state, an answer from the table looks at the table only. -/
theorem sameOutcome_respondFromTable (htable : s.table = s'.table) (f : List SpnDefinition → Response) :
    SameOutcome s s' (respondFromTable s f) (respondFromTable s' f) := by
  cases ht : s'.table with
  | some t => rw [respondFromTable_some ht, respondFromTable_some (htable.trans ht)]; exact .answered _
  | none => rw [respondFromTable_none ht, respondFromTable_none (htable.trans ht)]; exact .refused _

/-- Every operation has the same outcome in two states of one configuration (R165). -/
theorem exec_sameOutcome (i : Instr) (htable : s.table = s'.table) (hnum : s.numerics = s'.numerics) :
    SameOutcome s s' (exec i s) (exec i s') := by
  cases i with
  | parseId id => exact .answered _
  | buildId p d f ps sa => exact .answered _
  | getSpnDef spn => exact sameOutcome_respondFromTable htable fun rows => .spnDef (rowsBySpn rows spn)
  | listPgns => exact sameOutcome_respondFromTable htable fun rows => .pgns (distinctPgns rows)
  | dbStats => exact sameOutcome_respondFromTable htable fun rows => .stats (spnCount rows) (pgnCount rows)
  | extract p f => exact sameOutcome_admitPayload p (.answered _)
  | decodeSpn p f sc off na =>
    rw [exec, exec, execDecodeSpn, execDecodeSpn, hnum]
    exact sameOutcome_admitPayload p (.answered _)
  | decodeFrame id p =>
    rw [exec, exec, execDecodeFrame, execDecodeFrame, hnum]
    exact sameOutcome_admitPayload p (sameOutcome_respondFromTable htable _)
  | buildReq sa da pgn => exact .answered _

end

/-- DECODE_SPN reads from a payload the bytes below its length only (R55). -/
theorem decodeSpn_congr {d d' : BitVec 64} {n : Nat} (h : ∀ i, i < n → byteLane d i = byteLane d' i) (num : Numerics)
    (b t l : Nat) (sc off : F64Bits) (na : U64) :
    decodeSpn num d n b t l sc off na = decodeSpn num d' n b t l sc off na := by
  rw [decodeSpn, decodeSpn, extractBits_congr h]

/-- The value of a row depends on the payload's bytes only. -/
theorem decodeRow_congr {p p' : Payload} (h : SameBytes p p') (num : Numerics) (r : SpnDefinition) :
    decodeRow num p r = decodeRow num p' r := by
  obtain ⟨hdlen, hbytes⟩ := h
  rw [decodeRow, decodeRow, decodeSpn_congr hbytes, hdlen]

/-- The decoded elements depend on the payload's bytes only (R132). -/
theorem decodeFrame_congr {p p' : Payload} (h : SameBytes p p') (num : Numerics) (rows : List SpnDefinition)
    (id : U32) : decodeFrame num rows id p = decodeFrame num rows id p' := by
  have hrow : rowElement num p = rowElement num p' := funext fun r => by
    rw [rowElement, rowElement, decodeRow_congr h]
  rw [decodeFrame, decodeFrame, hrow]

/-- Payloads of one length are admitted alike. -/
theorem admitPayload_congr {p p' : Payload} (h : p.dlen = p'.dlen) (k : Host.Outcome State Fault Refusal) :
    admitPayload p k = admitPayload p' k := by
  rw [admitPayload, admitPayload, Payload.wf, Payload.wf, h]

/-- DECODE_FRAME reads from a payload the bytes below its length only (R132). -/
theorem exec_decodeFrame_congr {p p' : Payload} (h : SameBytes p p') (id : U32) (s : State) :
    exec (.decodeFrame id p) s = exec (.decodeFrame id p') s := by
  rw [exec, exec, execDecodeFrame, execDecodeFrame, admitPayload_congr h.1]
  simp only [decodeFrame_congr h]

/-- Settles O13: an operation has the same outcome in both states (`exec_sameOutcome`), and DECODE_FRAME the same one
for payloads of the same bytes (`exec_decodeFrame_congr`). -/
theorem answerDependsOnRequestAndConfigurationOnly : Obligations.AnswerDependsOnRequestAndConfigurationOnly := by
  intro i s s' htable hnum
  refine ⟨(exec_sameOutcome i htable hnum).next_iff, (exec_sameOutcome i htable hnum).refused_iff,
    fun id p p' r hbytes => ?_⟩
  rw [Answers, exec_decodeFrame_congr hbytes]
  exact (exec_sameOutcome (.decodeFrame id p') htable hnum).next_iff r

end Sys2Proof.Machine

/-! The flat request word and the record of its ports (spec/30_encoding.md R53), and the round trip of the encoder. -/

namespace Sys2Proof

/-- Every port is read back from the place where the flat word holds it (R53): the ports below it are passed over one
by one. -/
theorem Req.ofWord_toWord (q : Req) : Req.ofWord q.toWord = q := by
  simp (disch := decide) only [Req.ofWord, Req.toWord, extract_append_high, Nat.reduceSub, extract_append_low,
    BitVec.extractLsb'_eq_self]

/-- The nineteen ports of a flat word, side by side again, are the word: neighbouring slices join to one, and the slice
of all 429 bits is the word. -/
theorem Req.toWord_ofWord (w : ReqWord) : (Req.ofWord w).toWord = w := by
  simp only [Req.ofWord, Req.toWord]
  iterate 18 rw [BitVec.extractLsb'_append_extractLsb'_eq_extractLsb' (by decide)]
  exact BitVec.extractLsb'_eq_self

/-- Settles O6: the two forms are inverse to each other (`Req.ofWord_toWord`, `Req.toWord_ofWord`), and the place of a
port in `toWord` is where `ofWord` reads it. -/
theorem flatWordAndPortRecordAgree : Obligations.FlatWordAndPortRecordAgree := by
  refine ⟨Req.ofWord_toWord, Req.toWord_ofWord, fun q => ?_⟩
  have hports := Req.ofWord_toWord q
  cases q
  simpa only [Req.ofWord, Req.mk.injEq] using hports

/-- The request of a well-formed operation decodes to the operation (R60, R61). -/
theorem decode_encode {i : Instr} (h : i.wf = true) : decode (encode i) = .ok i := by
  have hrecord : Laws.RecordRoundTrip.Statement i := by
    cases i with
    | parseId id => exact Laws.RecordRoundTrip.parseId id
    | buildId p d f ps sa => exact Laws.RecordRoundTrip.buildId p d f ps sa
    | getSpnDef spn => exact Laws.RecordRoundTrip.getSpnDef spn
    | listPgns => exact Laws.RecordRoundTrip.listPgns
    | dbStats => exact Laws.RecordRoundTrip.dbStats
    | extract p f => exact Laws.RecordRoundTrip.extract p f
    | decodeSpn p f sc off na => exact Laws.RecordRoundTrip.decodeSpn p f sc off na
    | decodeFrame id p => exact Laws.RecordRoundTrip.decodeFrame id p
    | buildReq sa da pgn => exact Laws.RecordRoundTrip.buildReq sa da pgn
  exact (hrecord h).2

/-- Settles O7: the ports are read back from the flat word (`Req.ofWord_toWord`), and the operation from the ports
(`decode_encode`). -/
theorem decodeReadsBackEncode : Obligations.DecodeReadsBackEncode := by
  intro i h
  rw [decodeWord, encodeWord, Req.ofWord_toWord, decode_encode h]

/-- Settles O5: each word is evaluated. -/
theorem specRequestWordsDecode : Obligations.SpecRequestWordsDecode := by
  unfold Obligations.SpecRequestWordsDecode
  decide +kernel

end Sys2Proof

/-! The requests the decoder and a step refuse (spec/60_exceptions.md R146). -/

namespace Sys2Proof

/-- A request the input contract admits decodes to a well-formed operation of its own code (R60, R63). -/
theorem decode_admitted {q : Req} (hop : q.op.toNat ≤ 8)
    (hdlen : ¬ (5 ≤ q.op.toNat ∧ q.op.toNat ≤ 7 ∧ 9 ≤ q.dlen.toNat)) :
    ∃ i, decode q = .ok i ∧ i.wf = true ∧ i.opcode = q.op := by
  have hcode {c : BitVec 4} (h : q.op.toNat = c.toNat) : c = q.op := (BitVec.eq_of_toNat_eq h).symm
  have hshort (h5 : 5 ≤ q.op.toNat) (h7 : q.op.toNat ≤ 7) : q.dlen.toNat ≤ 8 := by omega
  rcases op_cases q with h | h | h | h | h | h | h | h | h | h
  · exact ⟨_, decode_parseId h, rfl, hcode h⟩
  · exact ⟨_, decode_buildId h, rfl, hcode h⟩
  · exact ⟨_, decode_getSpnDef h, rfl, hcode h⟩
  · exact ⟨_, decode_listPgns h, rfl, hcode h⟩
  · exact ⟨_, decode_dbStats h, rfl, hcode h⟩
  · have hd := hshort (by omega) (by omega)
    exact ⟨_, (decode_extract h).trans (withPayload_of_le hd _), Payload.wf_iff.2 hd, hcode h⟩
  · have hd := hshort (by omega) (by omega)
    exact ⟨_, (decode_decodeSpn h).trans (withPayload_of_le hd _), Payload.wf_iff.2 hd, hcode h⟩
  · have hd := hshort (by omega) (by omega)
    exact ⟨_, (decode_decodeFrame h).trans (withPayload_of_le hd _), Payload.wf_iff.2 hd, hcode h⟩
  · exact ⟨_, decode_buildReq h, rfl, hcode h⟩
  · omega

/-- A payload operation with more than 8 bytes is rejected by name (R63). -/
theorem decode_badDlen {q : Req} (hlow : 5 ≤ q.op.toNat) (hhigh : q.op.toNat ≤ 7) (hdlen : 9 ≤ q.dlen.toNat) :
    decode q = .error (.badDlen q.dlen) := by
  obtain h | h | h : q.op.toNat = 5 ∨ q.op.toNat = 6 ∨ q.op.toNat = 7 := by omega
  · exact (decode_extract h).trans (withPayload_of_gt hdlen _)
  · exact (decode_decodeSpn h).trans (withPayload_of_gt hdlen _)
  · exact (decode_decodeFrame h).trans (withPayload_of_gt hdlen _)

/-- Settles O8: the three clauses are `decode_reserved`, `decode_badDlen` and `decode_admitted`. -/
theorem decodingRejectsExactlyReservedRequests : Obligations.DecodingRejectsExactlyReservedRequests := fun _ =>
  ⟨decode_reserved, fun ⟨hlow, hhigh, hdlen⟩ => decode_badDlen hlow hhigh hdlen,
    fun ⟨hop, hdlen⟩ => decode_admitted hop hdlen⟩

/-- What the decoder admits is inside the input contract (R146). -/
theorem wf_of_decode {q : Req} {i : Instr} (h : decode q = .ok i) : i.wf = true := by
  by_cases hop : 9 ≤ q.op.toNat
  · rw [decode_reserved hop] at h; cases h
  · by_cases hdlen : 5 ≤ q.op.toNat ∧ q.op.toNat ≤ 7 ∧ 9 ≤ q.dlen.toNat
    · obtain ⟨hlow, hhigh, hlong⟩ := hdlen
      rw [decode_badDlen hlow hhigh hlong] at h; cases h
    · obtain ⟨j, hj, hwf, -⟩ := decode_admitted (by omega) hdlen
      rw [hj] at h
      cases h
      exact hwf

/-- The operations that read the table are those of the codes 2 to 4 and 7 (R60, R146). -/
theorem Instr.readsTable_iff_opcode (i : Instr) :
    i.readsTable = true ↔ (2 ≤ i.opcode.toNat ∧ i.opcode.toNat ≤ 4) ∨ i.opcode.toNat = 7 := by
  cases i <;> simp [Instr.readsTable, Instr.opcode]

end Sys2Proof

namespace Sys2Proof.Machine

/-- Before the table is built, a well-formed operation that reads it is refused (R146). -/
theorem exec_noTable {i : Instr} {s : State} (hwf : i.wf = true) (hreads : i.readsTable = true)
    (htable : s.table = none) : exec i s = .refused .noTable := by
  cases i with
  | getSpnDef spn => exact exec_getSpnDef_noTable htable spn
  | listPgns => exact exec_listPgns_noTable htable
  | dbStats => exact exec_dbStats_noTable htable
  | decodeFrame id p => exact exec_decodeFrame_noTable hwf htable id
  | parseId | buildId | extract | decodeSpn | buildReq => cases hreads

/-- A missing table is the one reason to refuse a well-formed operation (R146). -/
theorem exec_refused_iff {i : Instr} (hwf : i.wf = true) (s : State) (e : Refusal) :
    exec i s = .refused e ↔ i.readsTable = true ∧ s.table = none ∧ e = .noTable := by
  constructor
  · intro h
    have hmissing : ¬ (i.readsTable = true → ∃ t, s.table = some t) := fun htable => by
      obtain ⟨r, hr⟩ := exec_answers hwf htable
      cases h.symm.trans hr
    obtain ⟨hreads, hnone⟩ := Classical.not_imp.1 hmissing
    have htable : s.table = none := Option.eq_none_iff_forall_ne_some.2 fun t ht => hnone ⟨t, ht⟩
    exact ⟨hreads, htable, by cases h.symm.trans (exec_noTable hwf hreads htable); rfl⟩
  · rintro ⟨hreads, htable, rfl⟩
    exact exec_noTable hwf hreads htable

/-- Settles O11: a step refuses by what the decoder rejects (`decode_reserved`, `decode_badDlen`), and otherwise by a
missing table only (`exec_refused_iff`). -/
theorem refusalsAreThoseOfTheContract : Obligations.RefusalsAreThoseOfTheContract := by
  intro s q rest hq
  by_cases hop : 9 ≤ q.op.toNat
  · have hstep : step s = .refused (.badOp q.op) := step_error hq (decode_reserved hop)
    simp only [hstep, Host.Outcome.refused.injEq, reduceCtorEq, true_iff, false_iff]
    exact ⟨hop, by omega, by omega, fun r hr => .inl hr.symm⟩
  · by_cases hdlen : 5 ≤ q.op.toNat ∧ q.op.toNat ≤ 7 ∧ 9 ≤ q.dlen.toNat
    · obtain ⟨hlow, hhigh, hlong⟩ := hdlen
      have hstep : step s = .refused (.badDlen q.dlen) := step_error hq (decode_badDlen hlow hhigh hlong)
      simp only [hstep, Host.Outcome.refused.injEq, reduceCtorEq, true_iff, false_iff]
      exact ⟨hop, ⟨hlow, hhigh, hlong⟩, by omega, fun r hr => .inr (.inl hr.symm)⟩
    · obtain ⟨i, hi, hwf, hcode⟩ := decode_admitted (by omega) hdlen
      simp only [step_ok hq hi, exec_refused_iff hwf, Instr.readsTable_iff_opcode, hcode, reduceCtorEq, and_false,
        false_iff, and_true]
      refine ⟨hop, hdlen, ?_, fun r ⟨_, _, hr⟩ => .inr (.inr hr)⟩
      rw [and_comm]
      exact and_congr_right fun _ => by omega

end Sys2Proof.Machine

/-! Reset, the host's actions and the table's conditions (spec/70_reset_and_hazards.md R160 to R167, spec/41_database.md
R110, R123). -/

namespace Sys2Proof.Machine

/-- Settles O1: the fields of the reset state and of the reset input. -/
theorem resetKeepsConfiguration : Obligations.ResetKeepsConfiguration :=
  ⟨rfl, rfl, rfl, fun s => ⟨s.resetInput_table, s.resetInput_numerics, s.resetInput_requests, s.resetInput_responses⟩⟩

/-- The oldest pending response is taken, and only it (R167). -/
theorem takeResponse_cons {s : State} {r : Response} {rest : List Response} (h : s.responses = r :: rest) :
    s.takeResponse = some (r, { s with responses := rest }) := by
  simp [State.takeResponse, h]

/-- With none pending nothing is taken. -/
theorem takeResponse_nil {s : State} (h : s.responses = []) : s.takeResponse = none := by
  simp [State.takeResponse, h]

/-- Settles O4: `State.present` appends to the requests, and a response is taken by `takeResponse_cons`. -/
theorem responsesAreTakenOldestFirst : Obligations.ResponsesAreTakenOldestFirst := fun s q _ _ =>
  ⟨s.present_requests q, s.present_responses q, takeResponse_cons, takeResponse_nil⟩

/-- Taking a response changes the pending responses only. -/
theorem takeResponse_frame {s t : State} {r : Response} (h : s.takeResponse = some (r, t)) :
    t.table = s.table ∧ t.numerics = s.numerics ∧ t.requests = s.requests := by
  cases hr : s.responses with
  | nil => rw [takeResponse_nil hr] at h; cases h
  | cons r' rest => rw [takeResponse_cons hr] at h; cases h; exact ⟨rfl, rfl, rfl⟩

/-- No waiting request reads the table exactly when none decodes to an operation that does. -/
theorem any_readsTable_eq_false_iff {requests : List Req} :
    requests.any Req.readsTable = false ↔ ∀ q ∈ requests, ∀ i, decode q = .ok i → i.readsTable = false := by
  rw [List.any_eq_false]
  refine forall₂_congr fun q _ => ?_
  rw [readsTable_iff]
  simp

section buildTable
variable {s : State} {rows : List SpnDefinition}

/-- The table is built from well-formed rows when there is none and no waiting request reads it (R162). -/
theorem buildTable_of_wf (htable : s.table = none) (hwaiting : s.requests.any Req.readsTable = false)
    (hwf : tableWf rows = true) : s.buildTable rows = .next { s with table := some ⟨rows, hwf⟩ } := by
  simp [State.buildTable, htable, hwaiting, hwf]

/-- Other rows are refused (R123). -/
theorem buildTable_malformed (htable : s.table = none) (hwaiting : s.requests.any Req.readsTable = false)
    (hwf : tableWf rows = false) : s.buildTable rows = .refused .malformedTable := by
  simp [State.buildTable, htable, hwaiting, hwf]

/-- A second table is refused (R43). -/
theorem buildTable_again (htable : s.table.isSome = true) : s.buildTable rows = .refused .tableReplaced := by
  obtain ⟨t, ht⟩ := Option.isSome_iff_exists.1 htable
  simp [State.buildTable, ht]

end buildTable

/-- Settles O3: the four clauses are `buildTable_of_wf`, `buildTable_early`, `buildTable_malformed` and
`buildTable_again`. -/
theorem tableIsBuiltOnceFromWellFormedRows : Obligations.TableIsBuiltOnceFromWellFormedRows := by
  refine fun s rows => ⟨fun htable hwaiting hwf => ?_, ?_, fun htable hwaiting hwf => ?_, buildTable_again⟩
  · exact ⟨⟨rows, hwf⟩, rfl, buildTable_of_wf htable (any_readsTable_eq_false_iff.2 hwaiting) hwf⟩
  · rintro htable ⟨q, hq, i, hi, hreads⟩
    exact buildTable_early htable hq ((readsTable_of_decode hi).trans hreads) rows
  · exact buildTable_malformed htable (any_readsTable_eq_false_iff.2 hwaiting) hwf

/-- When the oldest request reads the table and there is none, a step refuses (R146). -/
theorem step_noTable {s : State} {q : Req} {rest : List Req} {i : Instr} (hq : s.requests = q :: rest)
    (hi : decode q = .ok i) (hreads : i.readsTable = true) (htable : s.table = none) :
    step s = .refused .noTable := by
  rw [step_ok hq hi]
  exact exec_noTable (wf_of_decode hi) hreads htable

/-- A step that leads on leaves the table as it is. -/
theorem step_next_table {s t : State} (h : step s = .next t) : t.table = s.table := by
  obtain ⟨-, rfl⟩ | ⟨q, rest, i, r, -, -, -, rfl⟩ := step_next h
  · rfl
  · rfl

/-- Settles O53: the request stops the building of the table (`buildTable_early`); a step that leads on took another
one, since taking this one is refused (`step_noTable`); presenting and taking a response leave the waiting requests in
place. -/
theorem earlyTableRequestsAreNeverAnswered : Obligations.EarlyTableRequestsAreNeverAnswered := by
  intro s q i htable hq hi hreads
  refine ⟨buildTable_early htable hq ((readsTable_of_decode hi).trans hreads), fun t ht => ?_, fun q' => ?_,
    fun r t ht => ?_, fun rest hrest => step_noTable hrest hi hreads htable⟩
  · refine ⟨(step_next_table ht).trans htable, ?_⟩
    obtain ⟨-, rfl⟩ | ⟨_, rest, _, r, hrest, -, -, hadded⟩ := step_next ht
    · exact hq
    · rw [hrest] at hq
      obtain rfl | hmem := List.mem_cons.1 hq
      · cases (step_noTable hrest hi hreads htable).symm.trans ht
      · rwa [hadded]
  · rw [State.present_table, State.present_requests]
    exact ⟨htable, List.mem_append_left _ hq⟩
  · obtain ⟨hsame, -, hrequests⟩ := takeResponse_frame ht
    exact ⟨hsame.trans htable, hrequests ▸ hq⟩

/-- The all-ones pattern of `l` bits, in the terms of the sentinel condition W5 (R110). -/
theorem eq_ones_iff {n l : Nat} : n = ones l ↔ n + 1 = 2 ^ l := by
  have hpos : 0 < 2 ^ l := Nat.two_pow_pos l
  rw [ones]
  omega

/-- W1 as a statement about positions. -/
theorem spnsDistinct_iff_getElem {rows : List SpnDefinition} :
    spnsDistinct rows = true ↔ ∀ j k (hj : j < rows.length) (hk : k < rows.length),
      (rows[j]'hj).spn = (rows[k]'hk).spn → j = k := by
  rw [spnsDistinct_iff, List.pairwise_iff_getElem]
  constructor
  · intro h j k hj hk he
    rcases Nat.lt_trichotomy j k with hlt | heq | hgt
    · exact absurd he.symm (h j k hj hk hlt)
    · exact heq
    · exact absurd he (h k j hk hj hgt)
  · intro h j k hj hk hlt he
    exact absurd (h k j hk hj he) (Nat.ne_of_gt hlt)

/-- Settles O2: W1 is `spnsDistinct_iff_getElem`; W2 to W6 are `rowWf_iff`, the sentinel by `eq_ones_iff` and the
rational values by `f64ToRat_isSome_iff`. -/
theorem tableConditions : Obligations.TableConditions := by
  intro rows
  simp only [tableWf, Bool.and_eq_true, List.all_eq_true, decide_eq_true_eq, rowWf_iff, eq_ones_iff,
    f64ToRat_isSome_iff, spnsDistinct_iff_getElem, and_assoc]

end Sys2Proof.Machine

/-! Identifiers as joined fields (spec/40_can_id.md R80, R84 to R86). -/

namespace Sys2Proof.Machine

/-- A built identifier field by field, from bits 31:29 down: of the operands the low bits, and zeros in bits 31:29 and
25 (R84, D7). -/
theorem buildCanId_eq_append (p d f ps sa : Nat) :
    buildCanId p d f ps sa =
      (0 : BitVec 3) ++ BitVec.ofNat 3 p ++ (0 : BitVec 1) ++ BitVec.ofNat 1 d ++ BitVec.ofNat 8 f ++ BitVec.ofNat 8 ps
        ++ BitVec.ofNat 8 sa := by
  apply BitVec.eq_of_toNat_eq
  simp only [buildCanId_toNat, append_toNat, BitVec.toNat_ofNat, BitVec.ofNat_eq_ofNat]
  ring_nf

/-- An identifier is its seven fields side by side (R80). -/
theorem canId_eq_append (id : U32) :
    id = bits id 29 3 ++ bits id 26 3 ++ bits id 25 1 ++ bits id 24 1 ++ bits id 16 8 ++ bits id 8 8
      ++ bits id 0 8 := by
  simp only [bits]
  iterate 6 rw [BitVec.extractLsb'_append_extractLsb'_eq_extractLsb' (by decide)]
  exact BitVec.extractLsb'_eq_self.symm

/-- A built identifier has bits 31:29 and 25 clear (D7). -/
theorem buildCanId_and_mask (p d f ps sa : Nat) : buildCanId p d f ps sa &&& 0xE2000000 = 0 := by
  have hmask : (0xE2000000 : U32) = (7 : BitVec 3) ++ (0 : BitVec 3) ++ (1 : BitVec 1) ++ (0 : BitVec 1)
      ++ (0 : Byte) ++ (0 : Byte) ++ (0 : Byte) := rfl
  rw [buildCanId_eq_append, hmask]
  iterate 6 rw [BitVec.and_append]
  simp only [BitVec.ofNat_eq_ofNat, BitVec.and_zero, BitVec.zero_and]
  rfl

/-- The identifier of a request frame is a priority 6 Request-PGN (R136). -/
theorem buildRequest_canId_mask (sa da : Byte) (pgn : U32) :
    (buildRequest sa da pgn).canId &&& 0xFFFF0000 = 0x18EA0000 := by
  have hmask : (0xFFFF0000 : U32) = BitVec.allOnes 3 ++ BitVec.allOnes 3 ++ BitVec.allOnes 1 ++ BitVec.allOnes 1
      ++ BitVec.allOnes 8 ++ (0 : Byte) ++ (0 : Byte) := rfl
  rw [buildRequest, buildCanId_eq_append, hmask]
  iterate 6 rw [BitVec.and_append]
  simp only [BitVec.ofNat_eq_ofNat, BitVec.and_zero, BitVec.and_allOnes]
  rfl

/-- Clearing bits 31:29 and 25 of an identifier leaves its other fields in place. -/
theorem canId_and_mask (id : U32) :
    id &&& 0x1DFFFFFF =
      (0 : BitVec 3) ++ bits id 26 3 ++ (0 : BitVec 1) ++ bits id 24 1 ++ bits id 16 8 ++ bits id 8 8
        ++ bits id 0 8 := by
  have hmask : (0x1DFFFFFF : U32) = (0 : BitVec 3) ++ BitVec.allOnes 3 ++ (0 : BitVec 1) ++ BitVec.allOnes 1
      ++ BitVec.allOnes 8 ++ BitVec.allOnes 8 ++ BitVec.allOnes 8 := rfl
  refine (congrArg₂ (· &&& ·) (canId_eq_append id) hmask).trans ?_
  iterate 6 rw [BitVec.and_append]
  simp only [BitVec.ofNat_eq_ofNat, BitVec.and_zero, BitVec.and_allOnes]

/-- Bits 28:0 of an identifier are the fields of its record (R80). -/
theorem extract_eq_parseCanId_append (id : U32) :
    id.extractLsb' 0 29 =
      (parseCanId id).priority ++ (parseCanId id).reserved ++ (parseCanId id).dataPage ++ (parseCanId id).pduFormat
        ++ (parseCanId id).pduSpecific ++ (parseCanId id).sourceAddress := by
  simp only [parseCanId, bits]
  iterate 5 rw [BitVec.extractLsb'_append_extractLsb'_eq_extractLsb' (by decide)]

/-- Parsing a built identifier gives the operands cut to their fields, the reserved bit 0 and the derived PGN (R85). -/
theorem parseCanId_buildCanId (p d f ps sa : Nat) :
    parseCanId (buildCanId p d f ps sa) =
      ⟨BitVec.ofNat 3 p, 0, BitVec.ofNat 1 d, BitVec.ofNat 8 f, BitVec.ofNat 8 ps, BitVec.ofNat 8 sa,
        pgnOf (BitVec.ofNat 1 d) (BitVec.ofNat 8 f) (BitVec.ofNat 8 ps)⟩ := by
  rw [buildCanId_eq_append]
  simp (disch := decide) only [parseCanId, bits, extract_append_high, Nat.reduceSub, extract_append_low]

/-- A slice of `n` bits, widened and cut to `n` bits again, is itself. -/
theorem ofNat_toNat_setWidth {n m : Nat} (h : n ≤ m) (v : BitVec n) : BitVec.ofNat n (v.setWidth m).toNat = v := by
  rw [BitVec.ofNat_toNat, BitVec.setWidth_setWidth_of_le _ h, BitVec.setWidth_eq]

/-- Building from the five parsed fields clears bits 31:29 and 25 (R86). -/
theorem buildCanId_parseCanId (id : U32) :
    buildCanId ((parseCanId id).priority.setWidth 8).toNat ((parseCanId id).dataPage.setWidth 8).toNat
      (parseCanId id).pduFormat.toNat (parseCanId id).pduSpecific.toNat (parseCanId id).sourceAddress.toNat =
        id &&& 0x1DFFFFFF := by
  rw [buildCanId_eq_append, canId_and_mask, ofNat_toNat_setWidth (by decide), ofNat_toNat_setWidth (by decide)]
  simp only [BitVec.ofNat_toNat, BitVec.setWidth_eq]
  rfl

/-- Settles O22: the answer is the packing, and its number is `buildCanId_toNat`. -/
theorem buildIdPacksTruncatedFields : Obligations.BuildIdPacksTruncatedFields :=
  ⟨fun _ hop => decode_buildId (congrArg BitVec.toNat hop), fun p d f ps sa s => exec_buildId p d f ps sa s,
    buildCanId_toNat⟩

/-- Settles O23: the record of the built identifier is that of `parseCanId_buildCanId`. -/
theorem buildThenParseGivesTheFieldsBack : Obligations.BuildThenParseGivesTheFieldsBack := by
  intro p d f ps sa s
  refine ⟨_, _, exec_buildId p d f ps sa s, exec_parseId _ s, ?_⟩
  simp only [parseCanId_buildCanId, BitVec.ofNat_toNat, BitVec.setWidth_eq, BitVec.toNat_setWidth, Nat.reducePow,
    pow_one, and_self]

/-- Settles O24: the packing of the parsed fields is `buildCanId_parseCanId`, and the record holds bits 28:0 by
`extract_eq_parseCanId_append`. -/
theorem parseThenBuildClearsFourBits : Obligations.ParseThenBuildClearsFourBits := by
  refine fun id s => ⟨parseCanId id, exec_parseId id s, ?_, extract_eq_parseCanId_append id⟩
  rw [Answers, exec_buildId, buildCanId_parseCanId]

/-- The identifier of a request frame as a number (R136). -/
theorem buildRequest_canId_toNat (sa da : Byte) (pgn : U32) :
    (buildRequest sa da pgn).canId.toNat = 0x18EA0000 + da.toNat * 2 ^ 8 + sa.toNat := by
  have hsa := sa.isLt
  have hda := da.isLt
  rw [buildRequest, buildCanId_toNat, Config.reqPriority, Config.requestPduFormat]
  omega

/-- The payload of a request frame is the three low bytes of the PGN, lowest first (R137). -/
theorem requestPayload_toNat (pgn : U32) :
    (requestPayload pgn).map BitVec.toNat =
      [pgn.toNat % 2 ^ 8, pgn.toNat / 2 ^ 8 % 2 ^ 8, pgn.toNat / 2 ^ 16 % 2 ^ 8] := by
  simp only [requestPayload, List.map_cons, List.map_nil, bits_toNat, pow_zero, Nat.div_one]

/-- Settles O44: the frame is that of `buildRequest`, its identifier and payload as numbers. -/
theorem buildReqGivesTheRequestFrame : Obligations.BuildReqGivesTheRequestFrame :=
  ⟨fun _ hop => decode_buildReq (congrArg BitVec.toNat hop), fun sa da pgn s =>
    ⟨buildRequest sa da pgn, exec_buildReq sa da pgn s, buildRequest_canId_toNat sa da pgn, requestPayload_toNat pgn⟩⟩

/-- The PGN of a Request-PGN frame does not depend on the destination (R81, R138). -/
theorem pgnOf_request (da : Byte) : pgnOf 0 0xEA da = 59904 :=
  BitVec.eq_of_toNat_eq (pgnOf_toNat_pdu1 0 da (by decide))

/-- Settles O45: the identifier of the frame is built from the fixed fields, and parses by `parseCanId_buildCanId`. -/
theorem buildReqIsBuildIdOnFixedFields : Obligations.BuildReqIsBuildIdOnFixedFields := by
  intro sa da pgn s
  refine ⟨_, _, exec_buildReq sa da pgn s, exec_buildId 6 0 0xEA da sa s, exec_parseId _ s, ?_⟩
  have hbyte (b : Byte) : BitVec.ofNat 8 b.toNat = b := by rw [BitVec.ofNat_toNat, BitVec.setWidth_eq]
  rw [buildRequest, parseCanId_buildCanId, hbyte, hbyte]
  exact ⟨rfl, rfl, rfl, rfl, rfl, rfl, pgnOf_request da⟩

end Sys2Proof.Machine

/-! Steps and runs (spec/70_reset_and_hazards.md R162 to R167): progress, the legal responses, and the answers in
order. -/

namespace Sys2Proof.Machine

/-- Settles O10: `step_ok` for a waiting request and `step_idle` for none; a fetched word is the oldest request. -/
theorem stepRunsTheDecodedRequest : Obligations.StepRunsTheDecodedRequest := by
  refine ⟨fun _ _ _ _ => step_ok, fun _ => step_idle, fun s nbits w i hword => ?_⟩
  have hdecode : decode (Req.ofWord (tableWord nbits w)) = .ok i := by
    rw [decodeTableWord, decodeWord] at hword
    cases hd : decode (Req.ofWord (tableWord nbits w)) with
    | ok j => rw [hd] at hword; exact congrArg _ (Option.some.inj hword)
    | error e => rw [hd] at hword; cases hword
  exact step_ok (s.withFetchWord_requests nbits w) hdecode

/-- Settles O16: both queues are empty after reset. -/
theorem resetIsReadyAndLegal : Obligations.ResetIsReadyAndLegal :=
  ⟨List.forall_mem_nil _, List.forall_mem_nil _⟩

end Sys2Proof.Machine

namespace Sys2Proof

open Machine

/-- An operation that may be asked for is answered. -/
theorem Admitted.answers {i : Instr} {s : State} (h : Admitted i s) : ∃ r, Answers i s r :=
  exec_answers h.1 fun hreads => Option.isSome_iff_exists.1 (h.2 hreads)

/-- In a ready block with a waiting request, the oldest one decodes to an operation that may be asked for once it is
taken, and the block without it is ready. -/
theorem Ready.cons {s : State} {q : Req} {rest : List Req} (h : Ready s) (hq : s.requests = q :: rest) :
    (∃ i, decode q = .ok i ∧ Admitted i { s with requests := rest }) ∧ Ready { s with requests := rest } := by
  rw [Ready, hq, List.forall_mem_cons] at h
  exact h

/-- A step of a ready block answers the oldest request and leaves the block ready. -/
theorem Ready.step_cons {s : State} {q : Req} {rest : List Req} (h : Ready s) (hq : s.requests = q :: rest) :
    ∃ i r, decode q = .ok i ∧ Answers i { s with requests := rest } r ∧
      step s = .next (State.addResponse { s with requests := rest } r) ∧
      Ready (State.addResponse { s with requests := rest } r) := by
  obtain ⟨⟨i, hi, hadmitted⟩, hrest⟩ := h.cons hq
  obtain ⟨r, hr⟩ := hadmitted.answers
  exact ⟨i, r, hi, hr, (step_ok hq hi).trans hr, hrest⟩

/-- Settles O15: an idle block stays as it is, and otherwise the step answers the oldest request
(`Ready.step_cons`). -/
theorem readyBlockAnswersAndStaysReady : Obligations.ReadyBlockAnswersAndStaysReady := by
  intro s h
  cases hq : s.requests with
  | nil => exact ⟨s, step_idle hq, h, hq⟩
  | cons q rest =>
    obtain ⟨i, r, -, -, hstep, hready⟩ := h.step_cons hq
    exact ⟨_, hstep, hready, rfl⟩

/-- An operation has one answer in a state. -/
theorem Answers.unique {i : Instr} {s : State} {r r' : Response} (h : Answers i s r) (h' : Answers i s r') : r = r' :=
  State.addResponse_inj.1 (Host.Outcome.next.inj (h.symm.trans h'))

/-- Only an operation inside the input contract is answered. -/
theorem Answers.wf {i : Instr} {s : State} {r : Response} (h : Answers i s r) : i.wf = true := by
  cases i with
  | extract p f => exact (admitPayload_next h).1
  | decodeSpn p f sc off na => exact (admitPayload_next h).1
  | decodeFrame id p => exact (admitPayload_next h).1
  | parseId | buildId | getSpnDef | listPgns | dbStats | buildReq => rfl

/-- An operation that reads the table is answered only when there is one. -/
theorem Answers.table {i : Instr} {s : State} {r : Response} (h : Answers i s r) (hreads : i.readsTable = true) :
    ∃ t, s.table = some t := by
  refine Option.ne_none_iff_exists'.1 fun htable => ?_
  cases h.symm.trans (exec_noTable h.wf hreads htable)

end Sys2Proof

namespace Sys2Proof.Machine

/-- What a row's element carries of the row, beside the value. -/
theorem rowElement_keys {num : Numerics} {p : Payload} {r : SpnDefinition} {e : DecodedSpn}
    (h : rowElement num p r = some e) : (e.spn, e.name, e.unit) = (r.spn, r.name, r.unit) := by
  rw [rowElement, Option.map_eq_some_iff] at h
  obtain ⟨x, -, rfl⟩ := h
  rfl

/-- The elements of some rows come from distinct ones of them, in order. -/
theorem rowElements_keys_sublist (num : Numerics) (p : Payload) (rows : List SpnDefinition) :
    ((rows.filterMap (rowElement num p)).map (fun e => (e.spn, e.name, e.unit))).Sublist
      (rows.map (fun r => (r.spn, r.name, r.unit))) := by
  induction rows with
  | nil => exact List.Sublist.slnil
  | cons r rest ih =>
    cases he : rowElement num p r with
    | none => rw [List.filterMap_cons_none he]; exact ih.cons _
    | some e =>
      rw [List.filterMap_cons_some he, List.map_cons, List.map_cons, rowElement_keys he]
      exact ih.cons_cons _

/-- The decoded elements come from distinct rows of the table, in registration order (R130). -/
theorem decodeFrame_keys_sublist (num : Numerics) (rows : List SpnDefinition) (id : U32) (p : Payload) :
    ((decodeFrame num rows id p).map (fun e => (e.spn, e.name, e.unit))).Sublist
      (rows.map (fun r => (r.spn, r.name, r.unit))) :=
  (rowElements_keys_sublist num p _).trans ((rowsByPgn_sublist rows _).map _)

/-- What GET_SPN_DEF answers from a table is legal: nothing, or a row of it. -/
theorem legalResponse_spnDef (t : SpnTable) (spn : U32) : LegalResponse (some t) (.spnDef (rowsBySpn t.rows spn)) := by
  cases hfound : rowsBySpn t.rows spn with
  | none => rfl
  | some r => exact ⟨t, rfl, (rowsBySpn_some hfound).1⟩

/-- Every answer is legal for the table of the block. -/
theorem legalResponse_of_answers {i : Instr} {s : State} {r : Response} (h : Answers i s r) :
    LegalResponse s.table r := by
  cases i with
  | parseId id => obtain rfl := h.unique (exec_parseId id s); exact parseCanId_pgn id
  | buildId p d f ps sa => obtain rfl := h.unique (exec_buildId p d f ps sa s); exact buildCanId_and_mask _ _ _ _ _
  | getSpnDef spn =>
    obtain ⟨t, ht⟩ := h.table rfl
    obtain rfl := h.unique (exec_getSpnDef ht spn)
    rw [ht]
    exact legalResponse_spnDef t spn
  | listPgns =>
    obtain ⟨t, ht⟩ := h.table rfl
    obtain rfl := h.unique (exec_listPgns ht)
    exact ⟨t, ht, distinctPgns_nodup t.rows, fun _ => mem_distinctPgns⟩
  | dbStats =>
    obtain ⟨t, ht⟩ := h.table rfl
    obtain rfl := h.unique (exec_dbStats ht)
    exact ⟨t, ht, spnCount_toNat t, pgnCount_toNat t⟩
  | extract p f => obtain rfl := h.unique (exec_extract h.wf f s); exact trivial
  | decodeSpn p f sc off na => obtain rfl := h.unique (exec_decodeSpn h.wf f sc off na s); exact trivial
  | decodeFrame id p =>
    obtain ⟨t, ht⟩ := h.table rfl
    obtain rfl := h.unique (exec_decodeFrame h.wf ht id)
    exact ⟨t, ht, decodeFrame_keys_sublist s.numerics t.rows id p⟩
  | buildReq sa da pgn =>
    obtain rfl := h.unique (exec_buildReq sa da pgn s)
    exact ⟨buildRequest_canId_mask sa da pgn, rfl⟩

/-- Settles O17: a step that leads on adds one response to those there, and that is legal
(`legalResponse_of_answers`); the table stays. -/
theorem stepsKeepResponsesLegal : Obligations.StepsKeepResponsesLegal := by
  intro s t hlegal hstep
  obtain ⟨-, rfl⟩ | ⟨q, rest, i, r, -, -, hexec, rfl⟩ := step_next hstep
  · exact hlegal
  · have hnew : LegalResponse s.table r := legalResponse_of_answers (s := { s with requests := rest }) hexec
    intro r' hr'
    rcases List.mem_append.1 hr' with hold | hmem
    · exact hlegal r' hold
    · exact List.mem_singleton.1 hmem ▸ hnew

/-- The block of a configuration with nothing waiting and nothing pending. -/
def idleState (table : Option SpnTable) (num : Numerics) : State where
  table     := table
  numerics  := num
  requests  := []
  responses := []

/-- All states of a configuration answer a request alike: as the idle one does (R165). -/
theorem exists_answer (table : Option SpnTable) (num : Numerics) (q : Req) :
    ∃ r, ∀ (s : State) (i : Instr) (r' : Response), s.table = table → s.numerics = num → decode q = .ok i →
      Answers i s r' → r' = r := by
  by_cases h : ∃ i r, decode q = .ok i ∧ Answers i (idleState table num) r
  · obtain ⟨j, r, hj, hr⟩ := h
    refine ⟨r, fun s i r' htable hnum hi hr' => ?_⟩
    obtain rfl : j = i := Except.ok.inj (hj.symm.trans hi)
    have hidle : Answers j (idleState table num) r' := ((exec_sameOutcome j htable hnum).next_iff r').1 hr'
    exact hidle.unique hr
  · refine ⟨.raw none, fun s i r' htable hnum hi hr' => absurd ⟨i, r', hi, ?_⟩ h⟩
    exact ((exec_sameOutcome i htable hnum).next_iff r').1 hr'

/-- Settles O18: the function of `exists_answer`, by induction on the waiting requests, each step answering the oldest
(`Ready.step_cons`). -/
theorem runAnswersEachRequestIndependentlyInOrder : Obligations.RunAnswersEachRequestIndependentlyInOrder := by
  intro table num
  choose answer hanswer using exists_answer table num
  refine ⟨answer, fun s htable hnum hready => ?_⟩
  obtain ⟨requests, hq⟩ : ∃ requests, s.requests = requests := ⟨_, rfl⟩
  rw [hq]
  induction requests generalizing s with
  | nil =>
    obtain ⟨table, num, requests, responses⟩ := s
    subst hq
    simp [Host.Core.run]
  | cons q rest ih =>
    obtain ⟨i, r, hi, hr, hstep, hready'⟩ := hready.step_cons hq
    obtain rfl : r = answer q := hanswer q { s with requests := rest } i r htable hnum hi hr
    have hrest := ih (State.addResponse { s with requests := rest } (answer q)) htable hnum hready' rfl
    rw [List.length_cons, core_run_succ hstep, hrest]
    simp

end Sys2Proof.Machine

/-! The PGNs of a table in order and the coverage law (spec/41_database.md R116, R118, R121). -/

namespace Sys2Proof.Machine

/-- The place of the first row with a PGN. -/
def firstRow (rows : List SpnDefinition) (p : U32) : Nat := rows.findIdx (fun r => decide (r.pgn = p))

theorem firstRow_cons_self (r : SpnDefinition) (rest : List SpnDefinition) : firstRow (r :: rest) r.pgn = 0 := by
  simp [firstRow, List.findIdx_cons]

theorem firstRow_cons_ne {r : SpnDefinition} {p : U32} (h : r.pgn ≠ p) (rest : List SpnDefinition) :
    firstRow (r :: rest) p = firstRow rest p + 1 := by
  simp [firstRow, List.findIdx_cons, h]

/-- A row whose PGN is not among `l` comes before all rows of those PGNs and leaves their order as it is. -/
theorem pairwise_firstRow_cons {r : SpnDefinition} {rest : List SpnDefinition} {l : List U32} (hr : r.pgn ∉ l)
    (h : l.Pairwise fun p p' => firstRow rest p < firstRow rest p') :
    l.Pairwise fun p p' => firstRow (r :: rest) p < firstRow (r :: rest) p' := by
  refine h.imp_of_mem fun {p p'} hp hp' hlt => ?_
  have hne : r.pgn ≠ p := fun he => hr (he ▸ hp)
  have hne' : r.pgn ≠ p' := fun he => hr (he ▸ hp')
  rw [firstRow_cons_ne hne, firstRow_cons_ne hne']
  exact Nat.succ_lt_succ hlt

/-- The new PGNs are in the order of their first rows. -/
theorem newPgns_pairwise (before : List U32) (rows : List SpnDefinition) :
    (newPgns before rows).Pairwise fun p p' => firstRow rows p < firstRow rows p' := by
  induction rows generalizing before with
  | nil => exact List.Pairwise.nil
  | cons r rest ih =>
    by_cases h : r.pgn ∈ before
    · have hr : r.pgn ∉ newPgns before rest := fun hm => (mem_newPgns.1 hm).1 h
      rw [newPgns, if_pos h]
      exact pairwise_firstRow_cons hr (ih before)
    · have hr : r.pgn ∉ newPgns (r.pgn :: before) rest := fun hm => (mem_newPgns.1 hm).1 List.mem_cons_self
      rw [newPgns, if_neg h]
      refine List.Pairwise.cons (fun p hp => ?_) (pairwise_firstRow_cons hr (ih _))
      have hne : r.pgn ≠ p := fun he => hr (by rwa [← he] at hp)
      rw [firstRow_cons_self, firstRow_cons_ne hne]
      exact Nat.succ_pos _

/-- Settles O27: the list is `distinctPgns`, in the order of `newPgns_pairwise`. -/
theorem listPgnsGivesEachPgnOnceInOrder : Obligations.ListPgnsGivesEachPgnOnceInOrder :=
  ⟨fun _ hop => decode_listPgns (congrArg BitVec.toNat hop), fun _ t htable =>
    ⟨distinctPgns t.rows, exec_listPgns htable, distinctPgns_nodup t.rows, fun _ => mem_distinctPgns,
      newPgns_length_le, newPgns_pairwise [] t.rows⟩⟩

/-- The distinct PGNs are those of the rows without repeats, in some order. -/
theorem distinctPgns_perm_dedup (rows : List SpnDefinition) :
    (distinctPgns rows).Perm (rows.map SpnDefinition.pgn).dedup := by
  rw [List.perm_ext_iff_of_nodup (distinctPgns_nodup rows) (List.nodup_dedup _)]
  intro p
  rw [mem_distinctPgns, List.mem_dedup, List.mem_map]

/-- There are as many rows under a PGN as the PGN stands in the table. -/
theorem rowsByPgn_length (rows : List SpnDefinition) (p : U32) :
    (rowsByPgn rows p).length = (rows.map SpnDefinition.pgn).count p := by
  rw [rowsByPgn, List.count_eq_length_filter, List.filter_map, List.length_map]
  rfl

/-- Under the distinct PGNs there are all rows, each once (R121). -/
theorem sum_rowsByPgn_length (rows : List SpnDefinition) :
    ((distinctPgns rows).map fun p => (rowsByPgn rows p).length).sum = rows.length := by
  simp only [rowsByPgn_length]
  rw [((distinctPgns_perm_dedup rows).map _).sum_eq, List.sum_map_count_dedup_eq_length, List.length_map]

/-- A PGN has rows exactly when it is among the distinct ones (R121). -/
theorem rowsByPgn_ne_nil_iff {rows : List SpnDefinition} {p : U32} : rowsByPgn rows p ≠ [] ↔ p ∈ distinctPgns rows := by
  rw [mem_distinctPgns, Ne, List.eq_nil_iff_forall_not_mem, not_forall_not]
  exact exists_congr fun r => mem_rowsByPgn

/-- An SPN is found exactly when a row has it (R111). -/
theorem rowsBySpn_isSome_iff {rows : List SpnDefinition} {k : U32} :
    (rowsBySpn rows k).isSome = true ↔ k ∈ rows.map SpnDefinition.spn := by
  rw [rowsBySpn, List.find?_isSome, List.mem_map]
  simp

/-- Settles O29: the keys are the SPNs of the rows, pairwise different by W1, and the rows under the distinct PGNs are
counted by `sum_rowsByPgn_length`. -/
theorem statsAgreeWithLookups : Obligations.StatsAgreeWithLookups := by
  intro s t htable
  refine ⟨spnCount t.rows, pgnCount t.rows, distinctPgns t.rows, t.rows.map SpnDefinition.spn, exec_dbStats htable,
    exec_listPgns htable, t.spns_nodup, fun k => rowsBySpn_isSome_iff.symm, ?_, pgnCount_toNat t,
    fun p => rowsByPgn_ne_nil_iff, sum_rowsByPgn_length t.rows⟩
  rw [spnCount_toNat, List.length_map]

end Sys2Proof.Machine

/-! Fields of a payload: nested reads, the bounds test, unused lanes and the sentinel (spec/20_memory.md R37,
spec/42_extract_scale.md R92, R105, spec/30_encoding.md R55). -/

namespace Sys2Proof.Machine

/-- Bit `i` of a read of `n` bits is bit `pos + i` of the stream. -/
theorem memRead_testBit_stream (data : BitVec 64) (dlen pos n i : Nat) :
    (memRead data dlen pos n).testBit i = (decide (i < n) && (stream data dlen).testBit (pos + i)) := by
  rw [memRead, Nat.testBit_mod_two_pow, Nat.testBit_shiftRight]

/-- Settles O31: bit by bit, both reads give the bits of the stream from `pos2` upward. -/
theorem nestedFieldsReadTheSameBits : Obligations.NestedFieldsReadTheSameBits := by
  intro data dlen pos n pos2 n2 hstart hend
  apply Nat.eq_of_testBit_eq
  intro i
  rw [Nat.testBit_mod_two_pow, Nat.testBit_shiftRight, memRead_testBit_stream, memRead_testBit_stream]
  by_cases hi : i < n2
  · have hinside : pos2 - pos + i < n := by omega
    have hplace : pos + (pos2 - pos + i) = pos2 + i := by omega
    rw [decide_eq_true hinside, hplace, Bool.true_and]
  · rw [decide_eq_false hi, Bool.false_and, Bool.false_and]

section
variable {p : Payload} {f : Field} {s : State}

/-- EXTRACT is answered by the field at the port. -/
theorem answers_extract_iff (hwf : p.wf = true) {e : Option U64} :
    Answers (.extract p f) s (.raw e) ↔ toPort (readField p f) = e := by
  rw [Answers, exec_extract hwf, Host.Outcome.next.injEq, State.addResponse_inj, Response.raw.injEq]

/-- EXTRACT is answered by a value exactly when the field is read. -/
theorem answers_extract_some_iff (hwf : p.wf = true) {raw : U64} :
    Answers (.extract p f) s (.raw (some raw)) ↔ readField p f = .ok raw := by
  rw [answers_extract_iff hwf, toPort_eq_some_iff]

/-- DECODE_SPN is answered by the decoded value at the port. -/
theorem answers_decodeSpn_iff (hwf : p.wf = true) {sc off : F64Bits} {na : U64} {v : Option F64Bits} :
    Answers (.decodeSpn p f sc off na) s (.value v) ↔
      toPort (decodeSpn s.numerics p.data p.dlen.toNat f.startByte.toNat f.startBit.toNat f.lengthBits.toNat
        sc off na) = v := by
  rw [Answers, exec_decodeSpn hwf, Host.Outcome.next.injEq, State.addResponse_inj, Response.value.injEq]

end

/-- A field that is read is read from the bytes it needs alone (R92.4). -/
theorem extractBits_bytesNeeded {data : BitVec 64} {dlen b t l : Nat} {raw : U64}
    (h : extractBits data dlen b t l = .ok raw) : extractBits data (bytesNeeded b t l) b t l = .ok raw := by
  obtain ⟨hpos, hmax, hfits, rfl⟩ := extractBits_eq_ok.1 h
  have hneed : fieldPos b t + l ≤ 8 * bytesNeeded b t l := fits_iff.1 (decide_eq_true le_rfl)
  refine extractBits_eq_ok.2 ⟨hpos, hmax, hneed, congrArg _ (Nat.eq_of_testBit_eq fun i => ?_)⟩
  have hinside : (i < l ∧ fieldPos b t + i < 8 * dlen) ↔ (i < l ∧ fieldPos b t + i < 8 * bytesNeeded b t l) := by
    omega
  rw [memRead_testBit, memRead_testBit, decide_eq_decide.2 hinside]

/-- Settles O33: the forms of R92 are `fits_iff` and what `extractBits_eq_ok` says of a field that is read; its value is
that of the bytes it needs (`extractBits_bytesNeeded`), which the longer payload begins with. -/
theorem boundsTestForms : Obligations.BoundsTestForms := by
  intro p f s hdlen L pos
  have hwf : p.wf = true := Payload.wf_iff.2 hdlen
  refine ⟨fun _ => fits_iff, fun raw hraw => ?_, fun hL hlong => ?_, fun p' raw hdlen' hle hbytes hraw => ?_⟩
  · obtain ⟨hlen, -, hfits, -⟩ := extractBits_eq_ok.1 ((answers_extract_some_iff hwf).1 hraw)
    have hend : pos + L ≤ 8 * p.dlen.toNat := hfits
    have hlen' : 1 ≤ L := hlen
    omega
  · rw [answers_extract_iff hwf]
    refine toPort_eq_none_iff.2 fun raw hraw => ?_
    obtain ⟨-, -, hfits, -⟩ := extractBits_eq_ok.1 hraw
    have hend : pos + L ≤ 8 * p.dlen.toNat := hfits
    omega
  · have hread := (answers_extract_some_iff hwf).1 hraw
    obtain ⟨-, -, hfits, -⟩ := extractBits_eq_ok.1 hread
    have hneed : bytesNeeded f.startByte.toNat f.startBit.toNat L ≤ p.dlen.toNat := of_decide_eq_true (fits_iff.2 hfits)
    rw [answers_extract_some_iff (Payload.wf_iff.2 hdlen')]
    exact extractBits_mono (hneed.trans hle) hbytes (extractBits_bytesNeeded hread)

/-- The field read depends on the payload's bytes only (R55). -/
theorem readField_congr {p p' : Payload} (h : SameBytes p p') (f : Field) : readField p f = readField p' f := by
  obtain ⟨hdlen, hbytes⟩ := h
  rw [readField, readField, extractBits_congr hbytes, hdlen]

/-- EXTRACT reads from a payload the bytes below its length only (R55). -/
theorem exec_extract_congr {p p' : Payload} (h : SameBytes p p') (f : Field) (s : State) :
    exec (.extract p f) s = exec (.extract p' f) s := by
  rw [exec, exec, execExtract, execExtract, admitPayload_congr h.1, readField_congr h]

/-- DECODE_SPN reads from a payload the bytes below its length only (R55). -/
theorem exec_decodeSpn_congr {p p' : Payload} (h : SameBytes p p') (f : Field) (sc off : F64Bits) (na : U64)
    (s : State) : exec (.decodeSpn p f sc off na) s = exec (.decodeSpn p' f sc off na) s := by
  rw [exec, exec, execDecodeSpn, execDecodeSpn, admitPayload_congr h.1, decodeSpn_congr h.2, h.1]

/-- An empty payload holds no field (R55). -/
theorem toPort_extractBits_empty (data : BitVec 64) (b t l : Nat) : toPort (extractBits data 0 b t l) = none := by
  refine toPort_eq_none_iff.2 fun raw hraw => ?_
  obtain ⟨hpos, -, hfits, -⟩ := extractBits_eq_ok.1 hraw
  omega

/-- An empty payload has no decoded value. -/
theorem toPort_decodeSpn_empty (num : Numerics) (data : BitVec 64) (b t l : Nat) (sc off : F64Bits) (na : U64) :
    toPort (decodeSpn num data 0 b t l sc off na) = none := by
  rw [toPort_decodeSpn, toPort_extractBits_empty, Option.bind_none]

/-- No element is decoded from an empty payload. -/
theorem decodeFrame_empty {p : Payload} (hp : p.dlen = 0) (num : Numerics) (rows : List SpnDefinition) (id : U32) :
    decodeFrame num rows id p = [] := by
  refine List.filterMap_eq_nil_iff.2 fun r _ => ?_
  rw [rowElement, decodeRow, hp]
  exact congrArg _ (toPort_decodeSpn_empty num p.data _ _ _ _ _ _)

/-- Settles O34: no meaning reads a byte at or above the length, and below a length of 0 there is none. -/
theorem lanesAboveTheLengthAreIgnored : Obligations.LanesAboveTheLengthAreIgnored := by
  intro p p' f sc off na id s
  refine ⟨fun h => ⟨exec_extract_congr h f s, exec_decodeSpn_congr h f sc off na s, exec_decodeFrame_congr h id s⟩,
    fun hp => ?_⟩
  have hzero : p.dlen.toNat = 0 := congrArg BitVec.toNat hp
  have hwf : p.wf = true := Payload.wf_iff.2 (by omega)
  refine ⟨?_, ?_, fun htable => ?_⟩
  · rw [answers_extract_iff hwf, readField, hzero]
    exact toPort_extractBits_empty p.data _ _ _
  · rw [answers_decodeSpn_iff hwf, hzero]
    exact toPort_decodeSpn_empty s.numerics p.data _ _ _ _ _ _
  · obtain ⟨t, ht⟩ := Option.isSome_iff_exists.1 htable
    rw [Answers, exec_decodeFrame hwf ht, decodeFrame_empty hp]

/-- A read is all ones exactly when each of its bits is 1. -/
theorem memRead_eq_ones_iff {data : BitVec 64} {dlen pos l : Nat} :
    memRead data dlen pos l = ones l ↔ ∀ i, i < l → (stream data dlen).testBit (pos + i) = true := by
  constructor
  · intro h i hi
    have hbit := memRead_testBit_stream data dlen pos l i
    rw [h, ones, Nat.testBit_two_pow_sub_one, decide_eq_true hi, Bool.true_and] at hbit
    exact hbit.symm
  · intro h
    refine Nat.eq_of_testBit_eq fun i => ?_
    rw [memRead_testBit_stream, ones, Nat.testBit_two_pow_sub_one]
    by_cases hi : i < l
    · rw [h i hi, Bool.and_true]
    · rw [decide_eq_false hi, Bool.false_and]

/-- Settles O36: the field is read, and its raw value is the sentinel exactly when all its bits are 1
(`memRead_eq_ones_iff`). -/
theorem allOnesFieldHasNoValue : Obligations.AllOnesFieldHasNoValue := by
  intro p f sc off na s hdlen hpos hmax hna hend
  have hwf : p.wf = true := Payload.wf_iff.2 hdlen
  let pos := fieldPos f.startByte.toNat f.startBit.toNat
  let raw : U64 := BitVec.ofNat 64 (memRead p.data p.dlen.toNat pos f.lengthBits.toNat)
  have hread : readField p f = .ok raw := extractBits_eq_ok.2 ⟨hpos, hmax, hend, rfl⟩
  have hraw : raw = na ↔ ∀ i, i < f.lengthBits.toNat → (stream p.data p.dlen.toNat).testBit (pos + i) = true := by
    rw [← memRead_eq_ones_iff, ← eq_ones_iff.2 hna, ← raw_toNat hmax, BitVec.toNat_inj]
  refine ⟨fun hones => ?_, fun ⟨i, hi, hbit⟩ => ⟨scaleValue s.numerics raw sc off, ?_⟩⟩
  · rw [Answers, exec_decodeSpn_of_readField hwf, toPort_eq_some_iff.2 hread, Option.bind_some,
      if_pos (hraw.2 hones)]
  · have hne : raw ≠ na := fun he => by cases hbit.symm.trans (hraw.1 he i hi)
    rw [Answers, exec_decodeSpn_of_readField hwf, toPort_eq_some_iff.2 hread, Option.bind_some, if_neg hne]

end Sys2Proof.Machine

/-! The frame decoder, the absences and the pseudo-operation (spec/43_frame.md R130, R131, spec/60_exceptions.md R141
to R144, spec/30_encoding.md R66). -/

namespace Sys2Proof.Machine

/-- The PGN of an identifier looks at its data page and PDU format, and under PDU2 at its PDU specific byte (R131). -/
theorem parseCanId_pgn_congr {id id' : U32} (hhigh : id.toNat / 2 ^ 16 % 2 ^ 9 = id'.toNat / 2 ^ 16 % 2 ^ 9)
    (hlow : 240 ≤ id.toNat / 2 ^ 16 % 2 ^ 8 → id.toNat / 2 ^ 8 % 2 ^ 8 = id'.toNat / 2 ^ 8 % 2 ^ 8) :
    (parseCanId id).pgn = (parseCanId id').pgn := by
  have hpage : id.toNat / 2 ^ 24 % 2 = id'.toNat / 2 ^ 24 % 2 := by omega
  have hformat : id.toNat / 2 ^ 16 % 2 ^ 8 = id'.toNat / 2 ^ 16 % 2 ^ 8 := by omega
  apply BitVec.eq_of_toNat_eq
  simp only [parseCanId_pgn, pgnOf_toNat, parseCanId_dataPage_toNat, parseCanId_pduFormat_toNat,
    parseCanId_pduSpecific_toNat]
  rw [hpage, ← hformat]
  split
  · rw [hlow ‹_›]
  · rfl

/-- Of the identifier, DECODE_FRAME looks at the PGN only (R130). -/
theorem exec_decodeFrame_congr_pgn {id id' : U32} (h : (parseCanId id).pgn = (parseCanId id').pgn) (p : Payload)
    (s : State) : exec (.decodeFrame id p) s = exec (.decodeFrame id' p) s := by
  simp only [exec, execDecodeFrame, decodeFrame, h]

/-- Settles O42: the two identifiers have one PGN (`parseCanId_pgn_congr`). -/
theorem decodeFrameLooksAtThePgnOnly : Obligations.DecodeFrameLooksAtThePgnOnly := fun _ _ p s hhigh hlow =>
  exec_decodeFrame_congr_pgn (parseCanId_pgn_congr hhigh hlow) p s

/-- A function that keeps every value of another one leaves out no more elements of a list. -/
theorem filterMap_sublist_filterMap {α β : Type*} {f g : α → Option β} (h : ∀ a b, f a = some b → g a = some b)
    (l : List α) : (l.filterMap f).Sublist (l.filterMap g) := by
  induction l with
  | nil => exact List.Sublist.slnil
  | cons a rest ih =>
    cases hf : f a with
    | some b =>
      rw [List.filterMap_cons_some hf, List.filterMap_cons_some (h a b hf)]
      exact ih.cons_cons b
    | none =>
      rw [List.filterMap_cons_none hf]
      cases hg : g a with
      | none => rw [List.filterMap_cons_none hg]; exact ih
      | some b => rw [List.filterMap_cons_some hg]; exact ih.cons b

/-- A row's element is the same in a longer payload that begins with the bytes of the first (R92.4). -/
theorem rowElement_mono {p p' : Payload} (h : Extends p p') {num : Numerics} {r : SpnDefinition} {e : DecodedSpn}
    (he : rowElement num p r = some e) : rowElement num p' r = some e := by
  obtain ⟨hdlen, hbytes⟩ := h
  rw [rowElement, decodeRow, toPort_decodeSpn] at he ⊢
  cases hread : toPort (extractBits p.data p.dlen.toNat r.startByte r.startBit r.lengthBits) with
  | none => rw [hread] at he; cases he
  | some raw =>
    rw [toPort_eq_some_iff.2 (extractBits_mono hdlen hbytes (toPort_eq_some_iff.1 hread)), ← hread]
    exact he

/-- Settles O43: the rows of the frame's PGN are the same, and each keeps its element (`rowElement_mono`). -/
theorem longerPayloadKeepsDecodedElements : Obligations.LongerPayloadKeepsDecodedElements := by
  intro s id p p' htable hwf' hext
  obtain ⟨t, ht⟩ := Option.isSome_iff_exists.1 htable
  have hwf : p.wf = true := Payload.wf_iff.2 (hext.1.trans (Payload.wf_iff.1 hwf'))
  exact ⟨_, _, exec_decodeFrame hwf ht id, exec_decodeFrame hwf' ht id,
    filterMap_sublist_filterMap (fun _ _ => rowElement_mono hext) _⟩

/-- A result has a label exactly when the port carries nothing. -/
theorem labelOf_ne_none_iff {α : Type*} {r : Except Absence α} : labelOf r ≠ none ↔ toPort r = none := by
  cases r <;> simp [labelOf, toPort, Except.toOption]

/-- A length of 0 or above 64 is the first reason for an absent field (R144). -/
theorem extractBits_badLength {l : Nat} (h : l = 0 ∨ 64 < l) (data : BitVec 64) (dlen b t : Nat) :
    extractBits data dlen b t l = .error .badLength := by
  have hlen : ¬ lengthOk l = true := fun hok => by
    obtain ⟨hpos, hmax⟩ := lengthOk_iff.1 hok
    omega
  rw [extractBits, if_neg hlen]

/-- Too few bytes are the second (R144). -/
theorem extractBits_short {data : BitVec 64} {dlen b t l : Nat} (hpos : 1 ≤ l) (hmax : l ≤ 64)
    (hneed : dlen < bytesNeeded b t l) : extractBits data dlen b t l = .error .short := by
  have hfits : ¬ fits dlen b t l = true := fun h => absurd (of_decide_eq_true h) (Nat.not_le.2 hneed)
  rw [extractBits, if_pos (lengthOk_iff.2 ⟨hpos, hmax⟩), if_neg hfits]

/-- There are no other reasons. -/
theorem extractBits_error {data : BitVec 64} {dlen b t l : Nat} {a : Absence}
    (h : extractBits data dlen b t l = .error a) : a = .short ∨ a = .badLength := by
  unfold extractBits at h
  split at h
  · split at h
    · cases h
    · cases h; exact .inl rfl
  · cases h; exact .inr rfl

section
variable {num : Numerics} {p : Payload} {f : Field} {sc off : F64Bits} {na : U64}

/-- An absent field gives DECODE_SPN its label (R144). -/
theorem decodeSpnAbsence_error {a : Absence} (h : readField p f = .error a) :
    decodeSpnAbsence num p f sc off na = some a := by
  rw [readField] at h
  rw [decodeSpnAbsence, decodeSpn, h]
  rfl

/-- A field that is read has a label exactly when it is the sentinel (R144). -/
theorem decodeSpnAbsence_ok {raw : U64} (h : readField p f = .ok raw) :
    decodeSpnAbsence num p f sc off na = if raw = na then some .notAvailable else none := by
  rw [readField] at h
  rw [decodeSpnAbsence, decodeSpn, h]
  by_cases hna : raw = na <;> simp [scaleRaw, isNotAvailable, labelOf, hna]

/-- DECODE_SPN has a label exactly when it is answered with nothing (R143). -/
theorem decodeSpnAbsence_ne_none_iff {s : State} (hwf : p.wf = true) :
    decodeSpnAbsence s.numerics p f sc off na ≠ none ↔ Answers (.decodeSpn p f sc off na) s (.value none) := by
  rw [answers_decodeSpn_iff hwf, decodeSpnAbsence, labelOf_ne_none_iff]

end

/-- Settles O46: the label is that of the field, tested first, or of the sentinel. -/
theorem absencesAreTestedInOrder : Obligations.AbsencesAreTestedInOrder := by
  intro p f sc off na s hwf L need
  refine ⟨_, rfl, fun hlen => ?_, fun hpos hmax hneed => ?_, fun raw hraw => ?_, decodeSpnAbsence_ne_none_iff hwf⟩
  · exact decodeSpnAbsence_error (extractBits_badLength hlen _ _ _ _)
  · exact decodeSpnAbsence_error (extractBits_short hpos hmax hneed)
  · exact decodeSpnAbsence_ok ((answers_extract_some_iff hwf).1 hraw)

/-- Settles O47: a field that is read is absent as the sentinel; one that is not has one of the two other labels
(`extractBits_error`). -/
theorem extractTellsUnavailableFromShort : Obligations.ExtractTellsUnavailableFromShort := by
  intro p f sc off na s hwf hnone
  have hlabel := (decodeSpnAbsence_ne_none_iff hwf).2 hnone
  cases hread : readField p f with
  | ok raw =>
    rw [decodeSpnAbsence_ok hread] at hlabel ⊢
    by_cases hna : raw = na
    · rw [if_pos hna]
      exact .inl ⟨rfl, (answers_extract_some_iff hwf).2 (hna ▸ hread)⟩
    · exact absurd (if_neg hna) hlabel
  | error a =>
    rw [decodeSpnAbsence_error hread, answers_extract_iff hwf, answers_extract_iff hwf, hread]
    refine .inr ⟨?_, rfl⟩
    obtain rfl | rfl := extractBits_error hread
    · exact .inl rfl
    · exact .inr rfl

/-- The label unknown SPN is there exactly when no row is found (R141). -/
theorem spnDefAbsence_iff {rows : List SpnDefinition} {k : U32} :
    spnDefAbsence rows k = some .unknownSpn ↔ rowsBySpn rows k = none := by
  unfold spnDefAbsence
  cases rowsBySpn rows k <;> simp

/-- The label unknown PGN is there exactly when the PGN has no rows (R141). -/
theorem frameAbsence_iff {rows : List SpnDefinition} {id : U32} :
    frameAbsence rows id = some .unknownPgn ↔ rowsByPgn rows (parseCanId id).pgn = [] := by
  unfold frameAbsence
  cases rowsByPgn rows (parseCanId id).pgn <;> simp

/-- Settles O48: the labels are `spnDefAbsence_iff` and `frameAbsence_iff`; of no rows nothing is decoded. -/
theorem unknownKeysAreAbsences : Obligations.UnknownKeysAreAbsences := by
  intro s t spn id p htable hwf
  refine ⟨?_, ?_, fun habsent => ?_⟩
  · rw [spnDefAbsence_iff, Answers, exec_getSpnDef htable, Host.Outcome.next.injEq, State.addResponse_inj,
      Response.spnDef.injEq]
  · rw [frameAbsence_iff, rowsByPgn, List.filter_eq_nil_iff]
    simp only [decide_eq_true_eq]
  · rw [Answers, exec_decodeFrame hwf htable, decodeFrame, frameAbsence_iff.1 habsent, List.filterMap_nil]

/-- Settles O51: the row found by its SPN is the row itself, and DECODE_SPN with its fields answers as the row does in a
frame (`exec_decodeWithRow`). -/
theorem pseudoOperationUsesTheReturnedRow : Obligations.PseudoOperationUsesTheReturnedRow := by
  intro s t spn p htable hwf
  refine ⟨?_, fun habsent => ?_⟩
  · rintro r hr rfl
    exact ⟨decodeWithRow p r, congrArg (decodeSpnT p) (rowsBySpn_of_mem t hr), hwf,
      exec_decodeWithRow hwf (t.row_wf hr) s⟩
  · rw [rowsBySpn_none.2 habsent, decodeSpnT, Option.map_none]

/-- Settles O50: an element carries the SPN of a row of the table (`mem_decodeFrame`), whose place its index is
(`getElem?_rowIndex`). -/
theorem portElementDenotesItsRow : Obligations.PortElementDenotesItsRow := by
  refine fun t num id p => ⟨rfl, fun e he => ?_⟩
  obtain ⟨r, hr, hspn, hname, hunit⟩ := mem_decodeFrame he
  obtain ⟨hindex, hrow⟩ := getElem?_rowIndex t hr
  obtain ⟨spn, name, value, unit⟩ := e
  obtain rfl : spn = r.spn := hspn
  obtain rfl : name = r.name := hname
  obtain rfl : unit = r.unit := hunit
  exact ⟨hindex, by rw [denoteElement, hrow, Option.map_some]⟩

end Sys2Proof.Machine

/-! The port forms and the ROM row (spec/10_state.md R14, spec/30_encoding.md R54, R56). -/

namespace Sys2Proof.Machine

/-- Every field has a value its width can carry. -/
def FieldsFit (l : List PortField) : Prop := ∀ f ∈ l, f.value < 2 ^ f.width

theorem fieldsFit_nil : FieldsFit [] := List.forall_mem_nil _

theorem fieldsFit_cons {f : PortField} {l : List PortField} :
    FieldsFit (f :: l) ↔ f.value < 2 ^ f.width ∧ FieldsFit l := List.forall_mem_cons

theorem fieldsFit_append {l l' : List PortField} : FieldsFit (l ++ l') ↔ FieldsFit l ∧ FieldsFit l' :=
  List.forall_mem_append

theorem fieldsFit_flatMap {α : Type*} {l : List α} {g : α → List PortField} (h : ∀ a ∈ l, FieldsFit (g a)) :
    FieldsFit (l.flatMap g) := by
  intro f hf
  obtain ⟨a, ha, hfield⟩ := List.mem_flatMap.1 hf
  exact h a ha f hfield

/-- Words fit ports of their own width. -/
theorem fieldsFit_map_toNat {n : Nat} (l : List (BitVec n)) : FieldsFit (l.map fun v => ⟨n, v.toNat⟩) := by
  intro f hf
  obtain ⟨v, -, rfl⟩ := List.mem_map.1 hf
  exact v.isLt

/-- A string of fewer than 256 bytes fits its length port and its byte ports (R56). -/
theorem stringFields_fit {s : ByteString} (h : s.length < 256) : FieldsFit (stringFields s) :=
  fieldsFit_cons.2 ⟨h, fieldsFit_map_toNat s⟩

/-- A well-formed row with strings of fewer than 256 bytes fits the ports (R14). -/
theorem rowPortFields_fit {r : SpnDefinition} (hwf : rowWf r = true) (hname : r.name.length < 256)
    (hunit : r.unit.length < 256) : FieldsFit (rowPortFields r) := by
  obtain ⟨hbyte, hbit, hlen⟩ := field_fits_of_rowWf hwf
  simp only [rowPortFields, fieldsFit_append, fieldsFit_cons, fieldsFit_nil, and_true]
  exact ⟨⟨⟨r.spn.isLt, stringFields_fit hname⟩, stringFields_fit hunit⟩, r.pgn.isLt, hbyte, hbit, hlen, r.scale.isLt,
    r.offset.isLt, r.notAvailableRaw.isLt⟩

/-- Bytes side by side take 8 bits each (R32). -/
theorem lanes_lt (l : List Byte) : lanes l < 2 ^ (8 * l.length) := by
  induction l with
  | nil => exact Nat.one_pos
  | cons b rest ih =>
    have hb := b.isLt
    rw [lanes, List.length_cons, Nat.mul_succ, pow_add]
    omega

/-- No more elements are decoded than the table has rows. -/
theorem decodeFrame_length_le (num : Numerics) (rows : List SpnDefinition) (id : U32) (p : Payload) :
    (decodeFrame num rows id p).length ≤ rows.length := by
  have h := (decodeFrame_keys_sublist num rows id p).length_le
  rwa [List.length_map, List.length_map] at h

/-- The index of a decoded element's row fits its port (W7). -/
theorem rowIndex_lt_of_mem_decodeFrame {num : Numerics} {t : SpnTable} {id : U32} {p : Payload} {e : DecodedSpn}
    (he : e ∈ decodeFrame num t.rows id p) : rowIndex t.rows e.spn < 2 ^ 32 := by
  obtain ⟨r, hr, hspn, -, -⟩ := mem_decodeFrame he
  rw [hspn]
  exact (getElem?_rowIndex t hr).1.trans t.length_lt

/-- The answer of DECODE_FRAME fits the ports (R57). -/
theorem decodeFrame_portFields_fit (num : Numerics) (t : SpnTable) (id : U32) (p : Payload) :
    FieldsFit ((Response.decoded (decodeFrame num t.rows id p)).portFields t.rows) := by
  have hcount := (decodeFrame_length_le num t.rows id p).trans_lt t.length_lt
  refine fieldsFit_cons.2 ⟨hcount, fieldsFit_flatMap fun e he => ?_⟩
  simp only [fieldsFit_cons, fieldsFit_nil, and_true]
  exact ⟨e.spn.isLt, rowIndex_lt_of_mem_decodeFrame he, e.value.isLt⟩

/-- The answer of GET_SPN_DEF fits the ports. -/
theorem spnDef_portFields_fit {t : SpnTable} (hstrings : ∀ d ∈ t.rows, d.name.length < 256 ∧ d.unit.length < 256)
    (spn : U32) : FieldsFit ((Response.spnDef (rowsBySpn t.rows spn)).portFields t.rows) := by
  cases hfound : rowsBySpn t.rows spn with
  | none => exact fieldsFit_cons.2 ⟨Nat.two_pos, fieldsFit_nil⟩
  | some r =>
    have hr := (rowsBySpn_some hfound).1
    obtain ⟨hname, hunit⟩ := hstrings r hr
    exact fieldsFit_cons.2 ⟨Nat.one_lt_two, rowPortFields_fit (t.row_wf hr) hname hunit⟩

/-- An optional 64-bit value fits its `valid` bit and its port. -/
theorem optional_portFields_fit (rows : List SpnDefinition) (v : Option U64) :
    FieldsFit ((Response.raw v).portFields rows) ∧ FieldsFit ((Response.value v).portFields rows) := by
  cases v with
  | none => simp [Response.portFields, fieldsFit_cons, fieldsFit_nil]
  | some v => simpa [Response.portFields, fieldsFit_cons, fieldsFit_nil] using v.isLt

/-- Settles O52: the answer of each operation fits its ports; counts and row indices do by W7. -/
theorem portFieldsHoldTheirValues : Obligations.PortFieldsHoldTheirValues := by
  intro i s t r htable hstrings h
  change FieldsFit (r.portFields t.rows)
  cases i with
  | parseId id =>
    obtain rfl := h.unique (exec_parseId id s)
    simp only [Response.portFields, fieldsFit_cons, fieldsFit_nil, BitVec.isLt, and_true]
  | buildId p d f ps sa =>
    obtain rfl := h.unique (exec_buildId p d f ps sa s)
    exact fieldsFit_cons.2 ⟨BitVec.isLt _, fieldsFit_nil⟩
  | getSpnDef spn =>
    obtain rfl := h.unique (exec_getSpnDef htable spn)
    exact spnDef_portFields_fit hstrings spn
  | listPgns =>
    obtain rfl := h.unique (exec_listPgns htable)
    exact fieldsFit_cons.2 ⟨newPgns_length_le.trans_lt t.length_lt, fieldsFit_map_toNat _⟩
  | dbStats =>
    obtain rfl := h.unique (exec_dbStats htable)
    simp only [Response.portFields, fieldsFit_cons, fieldsFit_nil, BitVec.isLt, and_true]
  | extract p f =>
    obtain rfl := h.unique (exec_extract h.wf f s)
    exact (optional_portFields_fit t.rows _).1
  | decodeSpn p f sc off na =>
    obtain rfl := h.unique (exec_decodeSpn h.wf f sc off na s)
    exact (optional_portFields_fit t.rows _).2
  | decodeFrame id p =>
    obtain rfl := h.unique (exec_decodeFrame h.wf htable id)
    exact decodeFrame_portFields_fit s.numerics t id p
  | buildReq sa da pgn =>
    obtain rfl := h.unique (exec_buildReq sa da pgn s)
    exact fieldsFit_cons.2 ⟨BitVec.isLt _, fieldsFit_cons.2 ⟨lanes_lt (requestPayload pgn), fieldsFit_nil⟩⟩

/-- From bit `pos` upward a ROM number holds the fields of `l`. -/
def HoldsFrom (w pos : Nat) (l : List PortField) : Prop := w >>> pos = packFields l

/-- A ROM number holds its first field, and the others behind it. -/
theorem HoldsFrom.cons {w pos width value : Nat} {rest : List PortField} (h : HoldsFrom w pos (⟨width, value⟩ :: rest))
    (hfits : value < 2 ^ width) : (w >>> pos) % 2 ^ width = value ∧ HoldsFrom w (pos + width) rest := by
  rw [HoldsFrom, packFields, Nat.mod_eq_of_lt hfits] at h
  rw [HoldsFrom, Nat.shiftRight_add, h, Nat.shiftRight_eq_div_pow, Nat.add_mul_mod_self_left, Nat.mod_eq_of_lt hfits,
    Nat.add_mul_div_left _ _ (Nat.two_pow_pos width), Nat.div_eq_of_lt hfits, Nat.zero_add]
  exact ⟨rfl, rfl⟩

/-- The same for a word: it is read back by taking the low bits of its width. -/
theorem HoldsFrom.word {w pos n : Nat} {v : BitVec n} {rest : List PortField}
    (h : HoldsFrom w pos (⟨n, v.toNat⟩ :: rest)) :
    BitVec.ofNat n (w >>> pos) = v ∧ HoldsFrom w (pos + n) rest := by
  obtain ⟨hvalue, hrest⟩ := h.cons v.isLt
  exact ⟨BitVec.eq_of_toNat_eq (by rw [BitVec.toNat_ofNat, hvalue]), hrest⟩

/-- The same for the bytes of a string. -/
theorem HoldsFrom.bytes {w pos : Nat} {s : ByteString} {rest : List PortField}
    (h : HoldsFrom w pos (s.map (fun b => ⟨8, b.toNat⟩) ++ rest)) :
    romBytes w pos s.length = s ∧ HoldsFrom w (pos + 8 * s.length) rest := by
  induction s generalizing pos with
  | nil => exact ⟨rfl, h⟩
  | cons b s ih =>
    obtain ⟨hb, htail⟩ := h.word
    obtain ⟨hs, hrest⟩ := ih htail
    rw [List.length_cons, romBytes, hb, hs, Nat.mul_succ, Nat.add_comm (8 * s.length), ← Nat.add_assoc]
    exact ⟨rfl, hrest⟩

/-- The same for a string with its length in front (R56). -/
theorem HoldsFrom.string {w pos : Nat} {s : ByteString} {rest : List PortField}
    (h : HoldsFrom w pos (stringFields s ++ rest)) (hs : s.length < 256) :
    (w >>> pos) % 2 ^ 8 = s.length ∧ romBytes w (pos + 8) s.length = s ∧
      HoldsFrom w (pos + 8 + 8 * s.length) rest := by
  obtain ⟨hlength, hbytes⟩ := h.cons hs
  exact ⟨hlength, hbytes.bytes⟩

/-- Settles O49: the fields are read back one after another, each from where the one before it ends. -/
theorem romRowReadsBack : Obligations.RomRowReadsBack := by
  intro r hwf hname hunit
  obtain ⟨hbyte, hbit, hlen⟩ := field_fits_of_rowWf hwf
  have hrow : HoldsFrom (romOfRow r) 0 (⟨32, r.spn.toNat⟩ :: ⟨32, r.pgn.toNat⟩ :: ⟨3, r.startBit⟩ :: ⟨3, r.startByte⟩
      :: ⟨7, r.lengthBits⟩ :: ⟨64, r.scale.toNat⟩ :: ⟨64, r.offset.toNat⟩ :: ⟨64, r.notAvailableRaw.toNat⟩
      :: (stringFields r.name ++ (stringFields r.unit ++ []))) := by
    rw [HoldsFrom, romOfRow, rowRomFields, List.append_nil, List.append_assoc]
    rfl
  generalize romOfRow r = w at hrow
  obtain ⟨hspn, hrow⟩ := hrow.word
  obtain ⟨hpgn, hrow⟩ := hrow.word
  obtain ⟨hstartBit, hrow⟩ := hrow.cons hbit
  obtain ⟨hstartByte, hrow⟩ := hrow.cons hbyte
  obtain ⟨hlengthBits, hrow⟩ := hrow.cons hlen
  obtain ⟨hscale, hrow⟩ := hrow.word
  obtain ⟨hoffset, hrow⟩ := hrow.word
  obtain ⟨hna, hrow⟩ := hrow.word
  obtain ⟨hnameLength, hnameBytes, hrow⟩ := hrow.string hname
  obtain ⟨hunitLength, hunitBytes, -⟩ := hrow.string hunit
  simp only [Nat.reduceAdd, Nat.zero_add, Nat.shiftRight_zero] at *
  simp only [rowOfRom, *]

end Sys2Proof.Machine

/-! The rounding of the reference numerics as a statement about rational numbers (spec/42_extract_scale.md R101,
R102.3; spec/30_encoding.md R58). -/

namespace Sys2Proof.Machine

/-- A significand and an exponent as the 64 bits hold them: at most 53 bits, and fewer than 53 at the least exponent
only (R58). -/
structure Canonical (n : Nat) (q : Int) : Prop where
  minExp_le : Fp.minExp ≤ q
  le_maxExp : q ≤ Fp.maxExp
  lt        : n < 2 ^ 53
  normal    : q = Fp.minExp ∨ 2 ^ 52 ≤ n

/-- What unpacks to a finite number has a canonical significand and exponent. -/
theorem canonical_of_ofBits {b : F64Bits} {neg : Bool} {n : Nat} {q : Int} (h : Fp.ofBits b = .fin neg n q) :
    Canonical n q := by
  have hexp := (b.extractLsb' 52 11).isLt
  have hfrac := (b.extractLsb' 0 52).isLt
  unfold Fp.ofBits at h
  simp only at h
  split at h
  · split at h <;> cases h
  · split at h
    · cases h
      exact ⟨le_rfl, by decide, by omega, .inl rfl⟩
    · cases h
      refine ⟨?_, ?_, by omega, .inr (by omega)⟩
      · simp only [Fp.minExp]; omega
      · simp only [Fp.maxExp]; omega

/-- A number the 64 bits denote is that of a finite unpacked one. -/
theorem ofBits_of_f64ToRat {b : F64Bits} {x : ℚ} (h : f64ToRat b = some x) :
    ∃ neg n q, Fp.ofBits b = .fin neg n q ∧ x = dyadic neg n q := by
  rw [f64ToRat] at h
  cases hb : Fp.ofBits b with
  | nan => rw [hb] at h; cases h
  | inf s => rw [hb] at h; cases h
  | fin neg n q => rw [hb] at h; exact ⟨neg, n, q, rfl, (Option.some.inj h).symm⟩

/-- A binary64 number has a canonical form. -/
theorem IsF64.canonical {x : ℚ} (h : IsF64 x) : ∃ neg n q, x = dyadic neg n q ∧ Canonical n q := by
  obtain ⟨b, hb⟩ := h
  obtain ⟨neg, n, q, hfin, rfl⟩ := ofBits_of_f64ToRat hb
  exact ⟨neg, n, q, rfl, canonical_of_ofBits hfin⟩

/-- Every canonical form is that of a binary64 number. -/
theorem Canonical.isF64 {n : Nat} {q : Int} (h : Canonical n q) (neg : Bool) : IsF64 (dyadic neg n q) :=
  ⟨_, f64ToRat_toBits_fin (nan := 0) h.minExp_le h.le_maxExp h.lt.le h.normal fun ⟨_, hn⟩ => absurd hn h.lt.ne⟩

theorem dyadic_false (m : Nat) (e : Int) : dyadic false m e = m * 2 ^ e := by simp [dyadic]

theorem dyadic_true (m : Nat) (e : Int) : dyadic true m e = -(m * 2 ^ e) := by simp [dyadic]

@[simp] theorem abs_dyadic (neg : Bool) (m : Nat) (e : Int) : |dyadic neg m e| = m * 2 ^ e := by
  have hnonneg : (0 : ℚ) ≤ m * 2 ^ e := by positivity
  cases neg with
  | false => rw [dyadic_false, abs_of_nonneg hnonneg]
  | true => rw [dyadic_true, abs_neg, abs_of_nonneg hnonneg]

theorem neg_dyadic (neg : Bool) (m : Nat) (e : Int) : -dyadic neg m e = dyadic (!neg) m e := by
  cases neg with
  | false => exact (congrArg _ (dyadic_false m e)).trans (dyadic_true m e).symm
  | true => rw [dyadic_true, neg_neg]; exact (dyadic_false m e).symm

/-- The binary64 numbers lie symmetrically about 0. -/
theorem IsF64.neg {x : ℚ} (h : IsF64 x) : IsF64 (-x) := by
  obtain ⟨neg, n, q, rfl, hcan⟩ := h.canonical
  rw [neg_dyadic]
  exact hcan.isF64 _

theorem IsF64.abs {x : ℚ} (h : IsF64 x) : IsF64 |x| := by
  rcases abs_choice x with he | he
  · rwa [he]
  · rw [he]; exact h.neg

/-- The overflow bound in units of the last place of the largest finite numbers. -/
theorem overflowBound_eq_ulp : overflowBound = (2 ^ 53 - 1 / 2) * 2 ^ Fp.maxExp := by
  have hmax : (2 : ℚ) ^ Fp.maxExp = 2 ^ 971 := zpow_natCast 2 971
  rw [overflowBound, hmax, show (2 : ℚ) ^ 1024 = 2 ^ 53 * 2 ^ 971 by rw [← pow_add],
    show (2 : ℚ) ^ 971 = 2 * 2 ^ 970 by rw [← pow_succ']]
  generalize (2 : ℚ) ^ 970 = w
  ring

theorem overflowBound_pos : 0 < overflowBound := by
  rw [overflowBound_eq_ulp]
  positivity

/-- A binary64 number is below the overflow bound. -/
theorem IsF64.abs_lt_overflowBound {x : ℚ} (h : IsF64 x) : |x| < overflowBound := by
  obtain ⟨neg, n, q, rfl, hcan⟩ := h.canonical
  have hn : (n : ℚ) < 2 ^ 53 - 1 / 2 := by
    have : (n : ℚ) ≤ 2 ^ 53 - 1 := by
      rw [le_sub_iff_add_le]
      exact_mod_cast hcan.lt
    linarith
  rw [abs_dyadic, overflowBound_eq_ulp]
  calc (n : ℚ) * 2 ^ q ≤ n * 2 ^ Fp.maxExp :=
        mul_le_mul_of_nonneg_left (zpow_le_zpow_right₀ one_le_two hcan.le_maxExp) n.cast_nonneg
    _ < (2 ^ 53 - 1 / 2) * 2 ^ Fp.maxExp := mul_lt_mul_of_pos_right hn (by positivity)

/-- A binary64 number is a multiple of a given unit, or lies below the numbers that have this unit in the last place. -/
theorem IsF64.grid {y : ℚ} (h : IsF64 y) (q : Int) :
    (∃ z : Int, y = z * 2 ^ q) ∨ (y < 2 ^ 52 * 2 ^ q ∧ Fp.minExp < q) := by
  obtain ⟨neg, n, j, rfl, hcan⟩ := h.canonical
  rcases le_or_gt q j with hle | hlt
  · left
    obtain ⟨k, rfl⟩ : ∃ k : Nat, j = k + q := ⟨(j - q).toNat, by omega⟩
    refine ⟨(if neg then -1 else 1) * n * 2 ^ k, ?_⟩
    rw [dyadic, zpow_add₀ two_ne_zero, zpow_natCast]
    cases neg <;> simp <;> ring
  · right
    refine ⟨?_, hcan.minExp_le.trans_lt hlt⟩
    have hn : (n : ℚ) < 2 ^ 53 := by exact_mod_cast hcan.lt
    calc dyadic neg n j ≤ n * 2 ^ j := (le_abs_self _).trans_eq (abs_dyadic neg n j)
      _ < 2 ^ 53 * 2 ^ j := mul_lt_mul_of_pos_right hn (by positivity)
      _ = 2 ^ 52 * 2 ^ (j + 1) := by rw [zpow_add_one₀ two_ne_zero]; ring
      _ ≤ 2 ^ 52 * 2 ^ q := mul_le_mul_of_nonneg_left (zpow_le_zpow_right₀ one_le_two hlt) (by positivity)

/-- The significand that rounding gives at the exponent `quantum m e`. -/
def roundedMant (m : Nat) (e : Int) : Nat :=
  if quantum m e ≤ e then m <<< (e - quantum m e).toNat else roundShift m (quantum m e - e).toNat

/-- Rounding, without its zero case. -/
theorem roundFp_of_ne_zero {m : Nat} (hm : m ≠ 0) (neg : Bool) (e : Int) :
    roundFp neg m e =
      if Fp.maxExp < quantum m e ∨ (quantum m e = Fp.maxExp ∧ roundedMant m e = 2 ^ 53) then .inf neg
      else .fin neg (roundedMant m e) (quantum m e) := by
  rw [roundFp, if_neg hm]
  rfl

theorem roundFp_zero (neg : Bool) (e : Int) : roundFp neg 0 e = .fin neg 0 Fp.minExp := if_pos rfl

/-- `n * 2^q` is what rounding the magnitude `x` to 53 significant bits gives, overflow aside: `x` has its leading bit
at `q + 52`, or below it at the least exponent, and lies within half a unit of the last place, at exactly half a unit
only when `n` is even. -/
structure RoundsTo (x : ℚ) (n : Nat) (q : Int) : Prop where
  minExp_le : Fp.minExp ≤ q
  normal    : q = Fp.minExp ∨ 2 ^ 52 * 2 ^ q ≤ x
  lt        : x < 2 ^ 53 * 2 ^ q
  near      : 2 * |n * 2 ^ q - x| ≤ 2 ^ q
  tie       : 2 * |n * 2 ^ q - x| = 2 ^ q → n % 2 = 0

/-- The exponent of the last place is that of 53 significant bits, or the least one. -/
theorem quantum_cases (m : Nat) (e : Int) :
    quantum m e = e + bitLength m - 53 ∧ Fp.minExp ≤ quantum m e ∨
      quantum m e = Fp.minExp ∧ e + bitLength m - 53 < Fp.minExp := by
  unfold quantum
  simp only
  split <;> omega

section quantum
variable {m : Nat} (hm : m ≠ 0) (e : Int)
include hm

/-- The number has its leading bit at the 53rd place or below. -/
theorem mul_lt_quantum : (m : ℚ) * 2 ^ e < 2 ^ 53 * 2 ^ quantum m e := by
  obtain ⟨-, -, hb⟩ := bitLength_bounds hm
  have hm' : (m : ℚ) < 2 ^ bitLength m := by exact_mod_cast hb
  have hexp : (bitLength m : Int) + e ≤ 53 + quantum m e := by rcases quantum_cases m e with h | h <;> omega
  calc (m : ℚ) * 2 ^ e < 2 ^ bitLength m * 2 ^ e := mul_lt_mul_of_pos_right hm' (by positivity)
    _ = 2 ^ ((bitLength m : Int) + e) := by rw [zpow_add₀ two_ne_zero, zpow_natCast]
    _ ≤ 2 ^ (53 + quantum m e) := zpow_le_zpow_right₀ one_le_two hexp
    _ = 2 ^ 53 * 2 ^ quantum m e := by rw [zpow_add₀ two_ne_zero]; rfl

/-- It has its leading bit at the 53rd place, but at the least exponent. -/
theorem quantum_le_mul : quantum m e = Fp.minExp ∨ 2 ^ 52 * 2 ^ quantum m e ≤ (m : ℚ) * 2 ^ e := by
  rcases quantum_cases m e with ⟨hq, -⟩ | ⟨hq, -⟩
  · right
    obtain ⟨hpos, hb, -⟩ := bitLength_bounds hm
    have hm' : (2 : ℚ) ^ (bitLength m - 1) ≤ m := by exact_mod_cast hb
    have hexp : 52 + quantum m e = (bitLength m - 1 : Nat) + e := by omega
    calc (2 : ℚ) ^ 52 * 2 ^ quantum m e = 2 ^ (52 + quantum m e) := by rw [zpow_add₀ two_ne_zero]; rfl
      _ = 2 ^ (bitLength m - 1) * 2 ^ e := by rw [hexp, zpow_add₀ two_ne_zero, zpow_natCast]
      _ ≤ m * 2 ^ e := mul_le_mul_of_nonneg_right hm' (by positivity)
  · exact .inl hq

end quantum

/-- The rounding of a quotient by `2^k` in rational terms: within half a unit, at exactly half a unit only to an even
number. -/
theorem roundShift_near (m k : Nat) :
    2 * |(roundShift m k : ℚ) * 2 ^ k - m| ≤ 2 ^ k ∧
      (2 * |(roundShift m k : ℚ) * 2 ^ k - m| = 2 ^ k → roundShift m k % 2 = 0) := by
  obtain ⟨habove, hbelow, htie⟩ := roundShift_nearest m k
  generalize roundShift m k = n at *
  have habove' : 2 * ((n : ℚ) * 2 ^ k) ≤ 2 * m + 2 ^ k := by exact_mod_cast habove
  have hbelow' : 2 * (m : ℚ) ≤ 2 * (n * 2 ^ k) + 2 ^ k := by exact_mod_cast hbelow
  rcases abs_cases ((n : ℚ) * 2 ^ k - m) with ⟨habs, -⟩ | ⟨habs, -⟩
  · rw [habs]
    refine ⟨by linarith, fun h => htie (.inl ?_)⟩
    have : 2 * ((n : ℚ) * 2 ^ k) = 2 * m + 2 ^ k := by linarith
    exact_mod_cast this
  · rw [habs]
    refine ⟨by linarith, fun h => htie (.inr ?_)⟩
    have : 2 * (m : ℚ) = 2 * (n * 2 ^ k) + 2 ^ k := by linarith
    exact_mod_cast this

/-- The rounded significand lies within half a unit of the last place, at exactly half a unit only when it is even. -/
theorem roundedMant_near (m : Nat) (e : Int) :
    2 * |(roundedMant m e : ℚ) * 2 ^ quantum m e - m * 2 ^ e| ≤ 2 ^ quantum m e ∧
      (2 * |(roundedMant m e : ℚ) * 2 ^ quantum m e - m * 2 ^ e| = 2 ^ quantum m e → roundedMant m e % 2 = 0) := by
  unfold roundedMant
  generalize quantum m e = q
  have hunit : (0 : ℚ) < 2 ^ q := by positivity
  split
  · obtain ⟨k, rfl⟩ : ∃ k : Nat, e = k + q := ⟨(e - q).toNat, by omega⟩
    have hexact : ((m <<< (k + q - q).toNat : Nat) : ℚ) * 2 ^ q = m * 2 ^ (k + q) := by
      rw [show (k + q - q).toNat = k by omega, Nat.shiftLeft_eq, zpow_add₀ two_ne_zero, zpow_natCast]
      push_cast
      ring
    rw [hexact, sub_self, abs_zero, mul_zero]
    exact ⟨hunit.le, fun h => absurd h hunit.ne⟩
  · obtain ⟨k, rfl⟩ : ∃ k : Nat, q = k + e := ⟨(q - e).toNat, by omega⟩
    rw [show (k + e - e).toNat = k by omega]
    obtain ⟨hnear, htie⟩ := roundShift_near m k
    generalize roundShift m k = n at *
    have hpow : (2 : ℚ) ^ (k + e) = 2 ^ k * 2 ^ e := by rw [zpow_add₀ two_ne_zero, zpow_natCast]
    have hscale : 2 * |(n : ℚ) * 2 ^ (k + e) - m * 2 ^ e| = 2 * |(n : ℚ) * 2 ^ k - m| * 2 ^ e := by
      rw [hpow, ← mul_assoc, ← sub_mul, abs_mul, abs_of_pos (by positivity : (0 : ℚ) < 2 ^ e), mul_assoc]
    rw [hscale, hpow]
    exact ⟨mul_le_mul_of_nonneg_right hnear (by positivity), fun h => htie (mul_right_cancel₀ (by positivity) h)⟩

/-- Rounding a nonzero magnitude. -/
theorem roundsTo {m : Nat} (hm : m ≠ 0) (e : Int) : RoundsTo (m * 2 ^ e) (roundedMant m e) (quantum m e) where
  minExp_le := by rcases quantum_cases m e with ⟨-, h⟩ | ⟨h, -⟩ <;> omega
  normal := quantum_le_mul hm e
  lt := mul_lt_quantum hm e
  near := (roundedMant_near m e).1
  tie := (roundedMant_near m e).2

/-- A larger exponent makes the unit at least twice as large. -/
theorem zpow_mul_two_le {a b : Int} (h : a < b) : (2 : ℚ) ^ a * 2 ≤ 2 ^ b := by
  rw [← zpow_add_one₀ two_ne_zero]
  exact zpow_le_zpow_right₀ one_le_two h

section RoundsTo
variable {x : ℚ} {n : Nat} {q : Int} (h : RoundsTo x n q)
include h

/-- Every other multiple of the unit is at least as far, and as far only when the rounded significand is even. -/
theorem RoundsTo.grid_far {z : Int} (hz : z ≠ n) :
    |n * 2 ^ q - x| ≤ |(z : ℚ) * 2 ^ q - x| ∧ (|(z : ℚ) * 2 ^ q - x| = |n * 2 ^ q - x| → n % 2 = 0) := by
  have hnear := h.near
  have hstep : (1 : ℚ) ≤ |(z : ℚ) - n| := by exact_mod_cast Int.one_le_abs (sub_ne_zero.2 hz)
  have hunits : (2 : ℚ) ^ q ≤ |(z : ℚ) * 2 ^ q - n * 2 ^ q| := by
    rw [← sub_mul, abs_mul, abs_of_pos (by positivity : (0 : ℚ) < 2 ^ q)]
    exact le_mul_of_one_le_left (by positivity) hstep
  have htriangle : |(z : ℚ) * 2 ^ q - n * 2 ^ q| ≤ |(z : ℚ) * 2 ^ q - x| + |n * 2 ^ q - x| := by
    rw [abs_sub_comm ((n : ℚ) * 2 ^ q) x]
    exact abs_sub_le _ _ _
  exact ⟨by linarith, fun he => h.tie (by linarith)⟩

/-- No multiple of the unit is nearer. -/
theorem RoundsTo.grid_le (z : Int) : |n * 2 ^ q - x| ≤ |(z : ℚ) * 2 ^ q - x| := by
  by_cases hz : z = n
  · rw [hz, Int.cast_natCast]
  · exact (h.grid_far hz).1

/-- Every other binary64 number is at least as far, and as far only when the rounded significand is even: it is a
multiple of the unit, or lies below one that is no further from `x` than it is. -/
theorem RoundsTo.far {y : ℚ} (hy : IsF64 y) (hne : y ≠ n * 2 ^ q) :
    |n * 2 ^ q - x| ≤ |y - x| ∧ (|y - x| = |n * 2 ^ q - x| → n % 2 = 0) := by
  rcases hy.grid q with ⟨z, rfl⟩ | ⟨hbelow, hq⟩
  · exact h.grid_far fun hz => hne (by rw [hz, Int.cast_natCast])
  · have hnormal : 2 ^ 52 * 2 ^ q ≤ x := h.normal.resolve_left hq.ne'
    have hfloor : |n * 2 ^ q - x| ≤ x - 2 ^ 52 * 2 ^ q := by
      have hgrid := h.grid_le (2 ^ 52)
      rwa [Int.cast_pow, Int.cast_ofNat, abs_sub_comm (2 ^ 52 * 2 ^ q), abs_of_nonneg (sub_nonneg.2 hnormal)] at hgrid
    have hdist : x - y ≤ |y - x| := by rw [abs_sub_comm]; exact le_abs_self _
    exact ⟨by linarith, fun he => by linarith⟩

/-- The rounded significand is at most the power of two above 53 bits. -/
theorem RoundsTo.le_pow : n ≤ 2 ^ 53 := by
  have hunit : (0 : ℚ) < 2 ^ q := by positivity
  have hnear := h.near
  have hlt := h.lt
  have habove := le_abs_self ((n : ℚ) * 2 ^ q - x)
  have hn : (n : ℚ) < 2 ^ 53 + 1 := lt_of_mul_lt_mul_right (by linarith) hunit.le
  have hn' : n < 2 ^ 53 + 1 := by exact_mod_cast hn
  omega

/-- A rounding that does not overflow is of a number below the overflow bound: at the largest exponent, the last such
number would lie half a unit above an odd significand, and that tie goes up. -/
theorem RoundsTo.lt_overflowBound (hq : q ≤ Fp.maxExp) (hn : ¬ (q = Fp.maxExp ∧ n = 2 ^ 53)) : x < overflowBound := by
  have hunit : (0 : ℚ) < 2 ^ Fp.maxExp := by positivity
  have hnear := h.near
  rw [overflowBound_eq_ulp]
  rcases hq.lt_or_eq with hlt | rfl
  · have hsmall := zpow_mul_two_le hlt
    have hx := h.lt
    linarith
  · by_contra hx
    have hle : n + 1 ≤ 2 ^ 53 := Nat.lt_of_le_of_ne h.le_pow fun he => hn ⟨rfl, he⟩
    have hmant : (n : ℚ) * 2 ^ Fp.maxExp ≤ (2 ^ 53 - 1) * 2 ^ Fp.maxExp :=
      mul_le_mul_of_nonneg_right (by rw [le_sub_iff_add_le]; exact_mod_cast hle) hunit.le
    have hbelow := neg_abs_le ((n : ℚ) * 2 ^ Fp.maxExp - x)
    have heven : n % 2 = 0 := h.tie (by linarith)
    have hge : (2 : ℚ) ^ 53 - 1 ≤ n := le_of_mul_le_mul_right (by linarith) hunit
    have hge' : 2 ^ 53 ≤ n + 1 := by rw [sub_le_iff_le_add] at hge; exact_mod_cast hge
    omega

/-- A rounding that overflows is of a number from the overflow bound on. -/
theorem RoundsTo.overflowBound_le (hover : Fp.maxExp < q ∨ (q = Fp.maxExp ∧ n = 2 ^ 53)) : overflowBound ≤ x := by
  have hunit : (0 : ℚ) < 2 ^ Fp.maxExp := by positivity
  have hnear := h.near
  rw [overflowBound_eq_ulp]
  rcases hover with hlt | ⟨rfl, rfl⟩
  · have hne : q ≠ Fp.minExp := ((by decide : Fp.minExp < Fp.maxExp).trans hlt).ne'
    have hnormal := h.normal.resolve_left hne
    have hlarge := zpow_mul_two_le hlt
    linarith
  · have habove := le_abs_self (((2 ^ 53 : Nat) : ℚ) * 2 ^ Fp.maxExp - x)
    push_cast at *
    linarith

/-- Rounding overflows exactly from the overflow bound on (R102.3). -/
theorem RoundsTo.overflow_iff : overflowBound ≤ x ↔ Fp.maxExp < q ∨ (q = Fp.maxExp ∧ n = 2 ^ 53) := by
  refine ⟨fun hx => ?_, h.overflowBound_le⟩
  by_contra hno
  obtain ⟨hle, hpow⟩ := not_or.1 hno
  exact absurd (h.lt_overflowBound (not_lt.1 hle) hpow) hx.not_gt

end RoundsTo

end Sys2Proof.Machine

/-! Rounding is to nearest, ties to even, with overflow to infinity (spec/42_extract_scale.md R101, R102.3). -/

namespace Sys2Proof.Machine

/-- What rounds to `n * 2^q` in magnitude is nearest to it with either sign, the binary64 numbers being symmetric. -/
theorem RoundsTo.nearestEven {m n : Nat} {e q : Int} (h : RoundsTo (m * 2 ^ e) n q) (neg : Bool)
    (hF64 : IsF64 (dyadic neg n q)) : NearestEven (dyadic neg m e) (.fin neg n q) := by
  refine ⟨neg, n, q, rfl, hF64, ?_⟩
  cases neg with
  | false =>
    simp only [dyadic_false]
    refine ⟨fun y hy => ?_, fun y hy hne => (h.far hy hne).2⟩
    by_cases hne : y = n * 2 ^ q
    · rw [hne]
    · exact (h.far hy hne).1
  | true =>
    have hsign (y b : ℚ) : |y - -b| = |-y - b| := by rw [← abs_neg, neg_sub', neg_neg]
    simp only [dyadic_true, hsign, neg_neg, ne_eq, eq_neg_iff_add_eq_zero]
    refine ⟨fun y hy => ?_, fun y hy hne => (h.far hy.neg fun he => hne ?_).2⟩
    · by_cases hne : -y = n * 2 ^ q
      · rw [hne]
      · exact (h.far hy.neg hne).1
    · rw [← he, add_neg_cancel]

/-- Zero is nearest to zero. -/
theorem nearestEven_zero (neg : Bool) : NearestEven 0 (.fin neg 0 Fp.minExp) := by
  have hzero : dyadic neg 0 Fp.minExp = 0 := by simp [dyadic]
  have hcan : Canonical 0 Fp.minExp := ⟨le_rfl, by decide, by decide, .inl rfl⟩
  refine ⟨neg, 0, Fp.minExp, rfl, hcan.isF64 neg, fun y _ => ?_, fun _ _ _ _ => rfl⟩
  rw [hzero, sub_zero, abs_zero]
  exact abs_nonneg _

/-- From the overflow bound on, rounding gives an infinity (R102.3). -/
theorem roundFp_overflow {neg : Bool} {m : Nat} {e : Int} (h : overflowBound ≤ |dyadic neg m e|) :
    roundFp neg m e = .inf neg := by
  rw [abs_dyadic] at h
  have hm : m ≠ 0 := by
    rintro rfl
    rw [Nat.cast_zero, zero_mul] at h
    exact absurd overflowBound_pos h.not_gt
  rw [roundFp_of_ne_zero hm, if_pos ((roundsTo hm e).overflow_iff.1 h)]

/-- Below it, rounding gives the nearest binary64 number, a tie to the even one (R101). -/
theorem roundFp_nearestEven {neg : Bool} {m : Nat} {e : Int} (h : |dyadic neg m e| < overflowBound) :
    NearestEven (dyadic neg m e) (roundFp neg m e) := by
  by_cases hm : m = 0
  · rw [hm, roundFp_zero, dyadic, Nat.cast_zero, mul_zero, zero_mul]
    exact nearestEven_zero neg
  · rw [abs_dyadic] at h
    have hround : roundFp neg m e = .fin neg (roundedMant m e) (quantum m e) := by
      rw [roundFp_of_ne_zero hm, if_neg (mt (roundsTo hm e).overflow_iff.2 h.not_ge)]
    rw [hround]
    exact (roundsTo hm e).nearestEven neg ⟨_, f64ToRat_toBits_roundFp (nan := 0) hround⟩

/-- Settles O38: `roundFp_nearestEven` below the overflow bound, `roundFp_overflow` from it on. -/
theorem roundingIsToNearestTiesToEven : Obligations.RoundingIsToNearestTiesToEven := fun _ _ _ =>
  ⟨roundFp_nearestEven, roundFp_overflow⟩

end Sys2Proof.Machine

/-! The three steps of the scaler (spec/42_extract_scale.md R101, R102). -/

namespace Sys2Proof.Machine

/-- What denotes a number is a finite one. -/
theorem Fp.toRat_eq_some_iff {x : Fp} {a : ℚ} :
    x.toRat = some a ↔ ∃ neg m e, x = .fin neg m e ∧ dyadic neg m e = a := by
  cases x <;> simp [Fp.toRat]

/-- `r` is the rounding of the exact number `x`. -/
def IsRoundingOf (r : Fp) (x : ℚ) : Prop := ∃ neg m e, r = roundFp neg m e ∧ dyadic neg m e = x

/-- Below the overflow bound a rounding is nearest. -/
theorem IsRoundingOf.nearestEven {r : Fp} {x : ℚ} (h : IsRoundingOf r x) (hx : |x| < overflowBound) :
    NearestEven x r := by
  obtain ⟨neg, m, e, rfl, rfl⟩ := h
  exact roundFp_nearestEven hx

/-- A nearest number is a number. -/
theorem NearestEven.toRat {x : ℚ} {r : Fp} (h : NearestEven x r) : ∃ v, r.toRat = some v := by
  obtain ⟨neg, n, q, rfl, -⟩ := h
  exact ⟨_, rfl⟩

/-- Nothing is nearer to a binary64 number than itself. -/
theorem NearestEven.toRat_of_isF64 {x : ℚ} {r : Fp} (h : NearestEven x r) (hx : IsF64 x) : r.toRat = some x := by
  obtain ⟨neg, n, q, rfl, -, hnear, -⟩ := h
  have hdist := hnear x hx
  rw [sub_self, abs_zero, abs_nonpos_iff, sub_eq_zero] at hdist
  exact congrArg some hdist

/-- Rounding a binary64 number changes nothing. -/
theorem IsRoundingOf.toRat {r : Fp} {x : ℚ} (h : IsRoundingOf r x) (hx : IsF64 x) : r.toRat = some x :=
  (h.nearestEven hx.abs_lt_overflowBound).toRat_of_isF64 hx

/-- Packing a rounding keeps the number it denotes. -/
theorem IsRoundingOf.f64ToRat_toBits {r : Fp} {x v : ℚ} (h : IsRoundingOf r x) (hv : r.toRat = some v)
    (nan : F64Bits) : f64ToRat (r.toBits nan) = some v := by
  obtain ⟨neg, m, e, hround, -⟩ := h
  obtain ⟨neg', n, q, rfl, rfl⟩ := Fp.toRat_eq_some_iff.1 hv
  exact f64ToRat_toBits_roundFp hround.symm

/-- The conversion rounds the raw value. -/
theorem isRoundingOf_cvt (raw : Nat) : IsRoundingOf (Fp.cvt raw) raw :=
  ⟨false, raw, 0, rfl, by rw [dyadic_false, zpow_zero, mul_one]⟩

/-- A product of finite forms, sign by sign, significand by significand, exponent by exponent. -/
theorem dyadic_mul (s t : Bool) (m n : Nat) (e f : Int) :
    dyadic (s ^^ t) (m * n) (e + f) = dyadic s m e * dyadic t n f := by
  rw [dyadic, dyadic, dyadic, zpow_add₀ two_ne_zero]
  cases s <;> cases t <;> simp <;> ring

/-- The product is rounded. -/
theorem isRoundingOf_mul {x y : Fp} {a b : ℚ} (hx : x.toRat = some a) (hy : y.toRat = some b) :
    IsRoundingOf (Fp.mul x y) (a * b) := by
  obtain ⟨s, m, e, rfl, rfl⟩ := Fp.toRat_eq_some_iff.1 hx
  obtain ⟨t, n, f, rfl, rfl⟩ := Fp.toRat_eq_some_iff.1 hy
  exact ⟨_, _, _, rfl, dyadic_mul s t m n e f⟩

/-- A finite form in units of a smaller exponent. -/
theorem scaledInt_mul (neg : Bool) (m : Nat) {e q : Int} (h : q ≤ e) :
    (scaledInt neg m e q : ℚ) * 2 ^ q = dyadic neg m e := by
  obtain ⟨k, rfl⟩ : ∃ k : Nat, e = k + q := ⟨(e - q).toNat, by omega⟩
  rw [scaledInt, show (k + q - q).toNat = k by omega, Nat.shiftLeft_eq, dyadic, zpow_add₀ two_ne_zero, zpow_natCast]
  cases neg <;> simp <;> ring

/-- The exact sum, in units of the smaller exponent. -/
theorem exactSum_mul (s t : Bool) (m n : Nat) (e f : Int) :
    (exactSum s m e t n f : ℚ) * 2 ^ (if e ≤ f then e else f) = dyadic s m e + dyadic t n f := by
  rw [exactSum, Int.cast_add, add_mul, scaledInt_mul s m (by split <;> omega), scaledInt_mul t n (by split <;> omega)]

/-- An integer in sign and magnitude. -/
theorem dyadic_natAbs (z : Int) (q : Int) : dyadic (decide (z < 0)) z.natAbs q = z * 2 ^ q := by
  rcases lt_or_ge z 0 with h | h
  · rw [decide_eq_true h, dyadic_true, Nat.cast_natAbs, abs_of_neg h, Int.cast_neg, neg_mul, neg_neg]
  · rw [decide_eq_false (not_lt.2 h), dyadic_false, Nat.cast_natAbs, abs_of_nonneg h]

/-- The sum is rounded; a sum of zero is a zero. -/
theorem isRoundingOf_add {x y : Fp} {a b : ℚ} (hx : x.toRat = some a) (hy : y.toRat = some b) :
    IsRoundingOf (Fp.add x y) (a + b) := by
  obtain ⟨s, m, e, rfl, rfl⟩ := Fp.toRat_eq_some_iff.1 hx
  obtain ⟨t, n, f, rfl, rfl⟩ := Fp.toRat_eq_some_iff.1 hy
  have hsum := exactSum_mul s t m n e f
  by_cases hz : exactSum s m e t n f = 0
  · refine ⟨s && t, 0, 0, ?_, ?_⟩
    · rw [roundFp_zero, Fp.add]
      exact if_pos hz
    · rw [← hsum, hz, dyadic, Nat.cast_zero, mul_zero, zero_mul, Int.cast_zero, zero_mul]
  · refine ⟨_, _, _, ?_, (dyadic_natAbs _ _).trans hsum⟩
    rw [Fp.add]
    exact if_neg hz

/-- A raw value is far below the overflow bound. -/
theorem abs_raw_lt_overflowBound (raw : U64) : |(raw.toNat : ℚ)| < overflowBound := by
  have hraw : (raw.toNat : ℚ) < 2 ^ 64 := by exact_mod_cast raw.isLt
  have hpow : (2 : ℚ) ^ 64 ≤ 2 ^ Fp.maxExp := by
    rw [← zpow_natCast]
    exact zpow_le_zpow_right₀ one_le_two (by decide)
  rw [Nat.abs_cast, overflowBound_eq_ulp]
  linarith

/-- Settles O39: conversion, product and sum are each a rounding of the exact result on what the step before gave. -/
theorem referenceScalerRoundsEachStep : Obligations.ReferenceScalerRoundsEachStep := by
  intro raw scale offset a b ha hb
  have hcvt := (isRoundingOf_cvt raw.toNat).nearestEven (abs_raw_lt_overflowBound raw)
  obtain ⟨c, hc⟩ := hcvt.toRat
  refine ⟨c, hc, hcvt, fun hproduct => ?_⟩
  have hmul := (isRoundingOf_mul hc ha).nearestEven hproduct
  obtain ⟨m, hm⟩ := hmul.toRat
  refine ⟨m, hm, hmul, fun hsum => ?_⟩
  have hadd := isRoundingOf_add hm hb
  obtain ⟨v, hv⟩ := (hadd.nearestEven hsum).toRat
  exact ⟨v, hadd.f64ToRat_toBits hv _, hv, hadd.nearestEven hsum⟩

/-- The reference scaler is exact when each exact step is a binary64 number. -/
theorem scaleReference_exact {raw : U64} {scale offset : F64Bits} {a b : ℚ} (ha : f64ToRat scale = some a)
    (hb : f64ToRat offset = some b) (hraw : IsF64 (raw.toNat : ℚ)) (hproduct : IsF64 ((raw.toNat : ℚ) * a))
    (hsum : IsF64 ((raw.toNat : ℚ) * a + b)) :
    f64ToRat (scaleReference raw scale offset) = some ((raw.toNat : ℚ) * a + b) := by
  have hc := (isRoundingOf_cvt raw.toNat).toRat hraw
  have hm := (isRoundingOf_mul hc ha).toRat hproduct
  have hadd := isRoundingOf_add hm hb
  exact hadd.f64ToRat_toBits (hadd.toRat hsum) _

/-- A magnitude that is a binary64 number is representable. -/
theorem representable_of_isF64 {m : Nat} {e : Int} (h : IsF64 ((m : ℚ) * 2 ^ e)) : representable m e = true := by
  have hround : IsRoundingOf (roundFp false m e) (m * 2 ^ e) := ⟨false, m, e, rfl, dyadic_false m e⟩
  obtain ⟨neg, n, q, hfin, hvalue⟩ := Fp.toRat_eq_some_iff.1 (hround.toRat h)
  obtain ⟨rfl, -⟩ := roundFp_fin hfin
  rw [dyadic_false] at hvalue
  rw [representable, hfin]
  simp only
  split
  · obtain ⟨k, rfl⟩ : ∃ k : Nat, e = k + q := ⟨(e - q).toNat, by omega⟩
    rw [zpow_add₀ two_ne_zero, zpow_natCast, ← mul_assoc] at hvalue
    have hn : (n : ℚ) = m * 2 ^ k := mul_right_cancel₀ (by positivity) hvalue
    rw [decide_eq_true_eq, show (k + q - q).toNat = k by omega, Nat.shiftLeft_eq]
    exact_mod_cast hn
  · obtain ⟨k, rfl⟩ : ∃ k : Nat, q = k + e := ⟨(q - e).toNat, by omega⟩
    rw [zpow_add₀ two_ne_zero, zpow_natCast, ← mul_assoc] at hvalue
    have hn : (n : ℚ) * 2 ^ k = m := mul_right_cancel₀ (by positivity) hvalue
    rw [decide_eq_true_eq, show (k + e - e).toNat = k by omega, Nat.shiftLeft_eq]
    exact_mod_cast hn

/-- The exactness regime of R101 holds when each exact step is a binary64 number. -/
theorem exactRegime_of_isF64 {raw : U64} {scale offset : F64Bits} {a b : ℚ} (ha : f64ToRat scale = some a)
    (hb : f64ToRat offset = some b) (hraw : IsF64 (raw.toNat : ℚ)) (hproduct : IsF64 ((raw.toNat : ℚ) * a))
    (hsum : IsF64 ((raw.toNat : ℚ) * a + b)) : exactRegime raw scale offset = true := by
  obtain ⟨s, m, e, hs, rfl⟩ := ofBits_of_f64ToRat ha
  obtain ⟨t, n, f, ho, rfl⟩ := ofBits_of_f64ToRat hb
  have hscaled : dyadic s (raw.toNat * m) e = raw.toNat * dyadic s m e := by
    rw [dyadic, dyadic, Nat.cast_mul]
    ring
  have hrep1 : representable raw.toNat 0 = true := by
    apply representable_of_isF64
    rwa [zpow_zero, mul_one]
  have hrep2 : representable (raw.toNat * m) e = true := by
    apply representable_of_isF64
    rw [← abs_dyadic s, hscaled]
    exact hproduct.abs
  have hrep3 : representable (exactSum s (raw.toNat * m) e t n f).natAbs (if e ≤ f then e else f) = true := by
    apply representable_of_isF64
    rw [← abs_dyadic, dyadic_natAbs, exactSum_mul, hscaled]
    exact hsum.abs
  rw [exactRegime, hs, ho]
  simp only [hrep1, hrep2, hrep3, Bool.and_self]

/-- Settles O37: the reference is exact there (`scaleReference_exact`), and every other numerics agrees with it in the
exactness regime. -/
theorem scalerIsExactInTheExactRegime : Obligations.ScalerIsExactInTheExactRegime := by
  intro num raw scale offset a b ha hb hraw hproduct hsum
  cases num with
  | reference => exact scaleReference_exact ha hb hraw hproduct hsum
  | admissible k =>
    rw [scaleValue, if_pos (exactRegime_of_isF64 ha hb hraw hproduct hsum)]
    exact scaleReference_exact ha hb hraw hproduct hsum

end Sys2Proof.Machine

/-! Special values of the scaler (spec/42_extract_scale.md R102): NaN, infinity, signed zero, subnormal numbers. -/

namespace Sys2Proof.Machine

theorem Fp.mul_nan (x : Fp) : Fp.mul x .nan = .nan := by cases x <;> rfl

theorem Fp.add_nan (x : Fp) : Fp.add x .nan = .nan := by cases x <;> rfl

/-- A NaN operand makes the scaled value a NaN (R102.5). -/
theorem scaleFp_nan {raw : U64} {scale offset : F64Bits} (h : isNan scale = true ∨ isNan offset = true) :
    scaleFp raw scale offset = .nan := by
  rcases h with h | h
  · rw [scaleFp, ofBits_of_isNan h, Fp.mul_nan, Fp.add]
  · rw [scaleFp, ofBits_of_isNan h, Fp.add_nan]

/-- Which NaN it is stays open; it is one. -/
theorem isNan_scaleReference {raw : U64} {scale offset : F64Bits} (h : isNan scale = true ∨ isNan offset = true) :
    isNan (scaleReference raw scale offset) = true := by
  rw [scaleReference, scaleFp_nan h]
  exact isNan_nanOf _

/-- A finite form of nonzero magnitude is negative exactly by its sign. -/
theorem dyadic_neg_iff {s : Bool} {m : Nat} {e : Int} (h : dyadic s m e ≠ 0) : dyadic s m e < 0 ↔ s = true := by
  cases s with
  | true =>
    rw [dyadic_true] at h ⊢
    have hnonneg : (0 : ℚ) ≤ m * 2 ^ e := by positivity
    exact iff_of_true (neg_lt_zero.2 (hnonneg.lt_of_ne' (neg_ne_zero.1 h))) rfl
  | false =>
    have hnonneg : (0 : ℚ) ≤ dyadic false m e := by rw [dyadic_false]; positivity
    exact iff_of_false hnonneg.not_gt nofun

/-- A product out of range is the infinity with the sign of the scale, and a finite offset leaves it so (R102.3). -/
theorem scaleFp_overflow {raw : U64} {scale offset : F64Bits} {c a b : ℚ} (hc : (Fp.cvt raw.toNat).toRat = some c)
    (ha : f64ToRat scale = some a) (hb : f64ToRat offset = some b) (hover : overflowBound ≤ |c * a|) :
    scaleFp raw scale offset = .inf (decide (a < 0)) := by
  obtain ⟨sign, k, j, hcvt, rfl⟩ := Fp.toRat_eq_some_iff.1 hc
  obtain ⟨rfl, -⟩ := roundFp_fin hcvt
  obtain ⟨t, n, f, hs, rfl⟩ := ofBits_of_f64ToRat ha
  obtain ⟨u, l, g, ho, -⟩ := ofBits_of_f64ToRat hb
  have hne : dyadic t n f ≠ 0 := by
    intro h0
    rw [h0, mul_zero, abs_zero] at hover
    exact absurd overflowBound_pos hover.not_gt
  have hmul : Fp.mul (Fp.cvt raw.toNat) (Fp.ofBits scale) = .inf t := by
    rw [← dyadic_mul] at hover
    rw [hcvt, hs, Fp.mul, roundFp_overflow hover, Bool.false_xor]
  have hsign : decide (dyadic t n f < 0) = t := Bool.eq_iff_iff.2 (decide_eq_true_iff.trans (dyadic_neg_iff hne))
  rw [scaleFp, hmul, ho, Fp.add, hsign]

/-- The sign of a finite number is its bit 63. -/
theorem ofBits_fin_neg {b : F64Bits} {neg : Bool} {n : Nat} {q : Int} (h : Fp.ofBits b = .fin neg n q) :
    neg = b.getLsbD 63 := by
  unfold Fp.ofBits at h
  simp only at h
  split at h
  · split at h <;> cases h
  · split at h <;> cases h <;> rfl

/-- Zero times a number is a zero of the number's sign, and adding a zero keeps it only when both are negative
(R102.4). -/
theorem scaleFp_zero_mul {scale offset : F64Bits} {s t : Bool} {m : Nat} {e : Int} (hs : Fp.ofBits scale = .fin s m e)
    (ho : Fp.ofBits offset = .fin t 0 Fp.minExp) : scaleFp 0 scale offset = .fin (s && t) 0 Fp.minExp := by
  have hcvt : Fp.cvt (0 : U64).toNat = .fin false 0 Fp.minExp := rfl
  rw [scaleFp, hs, ho, hcvt, Fp.mul, Bool.false_xor, Nat.zero_mul, roundFp_zero]
  cases s <;> cases t <;> rfl

/-- A magnitude that is a subnormal number is rounded to itself (R102.6). -/
theorem roundFp_subnormal {m f : Nat} {e : Int} (hpos : f ≠ 0) (hlt : f < 2 ^ 52)
    (hvalue : (m : ℚ) * 2 ^ e = f * 2 ^ Fp.minExp) (neg : Bool) : roundFp neg m e = .fin neg f Fp.minExp := by
  have hunit : (0 : ℚ) < 2 ^ Fp.minExp := by positivity
  have hf : (f : ℚ) < 2 ^ 52 := by exact_mod_cast hlt
  have hm : m ≠ 0 := by
    rintro rfl
    rw [Nat.cast_zero, zero_mul] at hvalue
    exact (mul_pos (Nat.cast_pos.2 (Nat.pos_of_ne_zero hpos)) hunit).ne hvalue
  have h := roundsTo hm e
  rw [hvalue] at h
  have hq : quantum m e = Fp.minExp := by
    refine h.normal.resolve_right fun hnormal => ?_
    have hle : (2 : ℚ) ^ Fp.minExp ≤ 2 ^ quantum m e := zpow_le_zpow_right₀ one_le_two h.minExp_le
    have hbelow : (f : ℚ) * 2 ^ Fp.minExp < 2 ^ 52 * 2 ^ Fp.minExp := mul_lt_mul_of_pos_right hf hunit
    linarith
  have hmant : roundedMant m e = f := by
    have hnear := h.near
    rw [hq, ← sub_mul, abs_mul, abs_of_pos hunit, ← mul_assoc] at hnear
    have hdist : 2 * |(roundedMant m e : ℚ) - f| ≤ 1 := le_of_mul_le_mul_right (by linarith) hunit
    have hdist' : 2 * |(roundedMant m e : Int) - f| ≤ 1 := by exact_mod_cast hdist
    have hzero : (roundedMant m e : Int) - f = 0 := Int.abs_lt_one_iff.1 (by omega)
    omega
  rw [roundFp_of_ne_zero hm, hq, hmant, if_neg (by simp only [Fp.minExp, Fp.maxExp]; omega)]

/-- Adding a zero keeps a subnormal number (R102.6). -/
theorem add_zero_subnormal {f : Nat} (hpos : f ≠ 0) (hlt : f < 2 ^ 52) (s : Bool) :
    Fp.add (.fin s f Fp.minExp) (.fin false 0 Fp.minExp) = .fin s f Fp.minExp := by
  have hsum : exactSum s f Fp.minExp false 0 Fp.minExp = if s then -(f : Int) else f := by
    cases s <;> simp [exactSum, scaledInt]
  have hround := roundFp_subnormal hpos hlt rfl s
  rw [Fp.add]
  simp only [hsum, le_refl, if_true]
  cases s with
  | true => simpa [hpos, Nat.pos_of_ne_zero hpos] using hround
  | false => simpa [hpos, not_lt.2 (Int.natCast_nonneg f)] using hround

/-- Packing a subnormal number that was unpacked gives its bits back (R58). -/
theorem signed_of_subnormal {b : F64Bits} (h : b.extractLsb' 52 11 = 0) :
    Fp.signed (b.getLsbD 63) (b.extractLsb' 0 52).toNat = b := by
  have hexp : b.toNat / 2 ^ 52 % 2 ^ 11 = 0 := by
    rw [← Nat.shiftRight_eq_div_pow, ← BitVec.extractLsb'_toNat, h]
    rfl
  have hlt := b.isLt
  apply BitVec.eq_of_toNat_eq
  rw [Fp.signed, BitVec.toNat_ofNat, BitVec.extractLsb'_toNat, Nat.shiftRight_zero, ← BitVec.testBit_toNat,
    Nat.testBit_eq_decide_div_mod_eq]
  by_cases hsign : b.toNat / 2 ^ 63 % 2 = 1
  · rw [decide_eq_true hsign, if_pos rfl]; omega
  · rw [decide_eq_false hsign, if_neg Bool.false_ne_true]; omega

/-- One times a subnormal scale plus zero is the scale (R102.6). -/
theorem scaleReference_subnormal {scale : F64Bits} (hexp : scale.extractLsb' 52 11 = 0)
    (hfrac : scale.extractLsb' 0 52 ≠ 0) : scaleReference 1 scale 0 = scale := by
  have hsub := signed_of_subnormal hexp
  have hlt := (scale.extractLsb' 0 52).isLt
  have hpos : (scale.extractLsb' 0 52).toNat ≠ 0 := fun h => hfrac (BitVec.eq_of_toNat_eq h)
  have hs : Fp.ofBits scale = .fin (scale.getLsbD 63) (scale.extractLsb' 0 52).toNat Fp.minExp := by
    rw [Fp.ofBits, hexp]
    rfl
  generalize scale.getLsbD 63 = s at *
  generalize (scale.extractLsb' 0 52).toNat = f at *
  have hmul : Fp.mul (Fp.cvt (1 : U64).toNat) (.fin s f Fp.minExp) = .fin s f Fp.minExp := by
    have hcvt : Fp.cvt (1 : U64).toNat = .fin false (2 ^ 52) (-52) := by decide +kernel
    rw [hcvt, Fp.mul, Bool.false_xor]
    refine roundFp_subnormal hpos hlt ?_ s
    rw [zpow_add₀ two_ne_zero, Nat.cast_mul]
    norm_num
    ring
  have hzero : Fp.ofBits 0 = .fin false 0 Fp.minExp := by decide
  rw [scaleReference, scaleFp, hs, hmul, hzero, add_zero_subnormal hpos hlt, Fp.toBits]
  simpa using hsub

/-- Settles O40: one lemma for each special value above; a raw value other than the sentinel is delivered whatever it
scales to. -/
theorem scalerSpecialValues : Obligations.ScalerSpecialValues := by
  refine ⟨fun _ _ _ => isNan_scaleReference, fun raw scale offset c a b hc ha hb hover => ?_,
    fun scale hfinite hneg => ?_, fun _ => scaleReference_subnormal, fun p f sc off na raw s hwf hraw hna => ?_⟩
  · rw [scaleReference, scaleFp_overflow hc ha hb hover]
    by_cases hneg : a < 0
    · rw [decide_eq_true hneg, if_pos hneg]; rfl
    · rw [decide_eq_false hneg, if_neg hneg]; rfl
  · obtain ⟨a, ha⟩ := Option.isSome_iff_exists.1 ((f64ToRat_isSome_iff scale).2 hfinite)
    obtain ⟨s, m, e, hs, -⟩ := ofBits_of_f64ToRat ha
    obtain rfl : s = true := (ofBits_fin_neg hs).trans hneg
    constructor
    · rw [scaleReference, scaleFp_zero_mul hs (t := false) (by decide)]; rfl
    · rw [scaleReference, scaleFp_zero_mul hs (t := true) (by decide)]; rfl
  · have hread : toPort (readField p f) = some raw := (answers_extract_iff hwf).1 hraw
    refine ⟨scaleValue s.numerics raw sc off, ?_⟩
    rw [Answers, exec_decodeSpn_of_readField hwf, hread, Option.bind_some, if_neg hna]

end Sys2Proof.Machine
